-- ==== Sys2Proof/Word.lean ====
section
/-! DEFINITION. The word types of the core: bytes, addresses and register indices (00_scope.md R4, R9). -/

namespace Sys2Proof

/-- An unsigned 8-bit value: a general register, `fl`, a memory cell, an instruction byte
(00_scope.md R4 `XLEN`, R9). Bit 0 is the least significant bit (R10). -/
abbrev Byte := BitVec 8

/-- An 8-bit address into the one 256-cell memory: `pc` and `sp` (00_scope.md R4 `ADDRW`; 10_state.md R23, R24). -/
abbrev Addr := BitVec 8

/-- The index of a general register, 0 to 7 (00_scope.md R4 `NREG`; 10_state.md R21). -/
abbrev RegIdx := Fin 8

end Sys2Proof
end

