-- ==== Sys2Proof/Config.lean ====
section
/-! DEFINITION. The implementation parameters of 00_scope.md R4 that are plain values. The opcode map, the one
parameter the spec leaves to the model (92_eei_decisions.md D1), has its type here and its default in Decode.lean. -/

namespace Sys2Proof

/-- One name per instruction of the core (30_encoding.md R82). -/
inductive Mnemonic where
  | ldi | prn | add | mult | push | pop | call | ret | jmp | jeq | jne | cmp | hlt
  deriving DecidableEq, Repr

/-- The parameter `OPC : Mnemonic -> Byte` of 30_encoding.md R82, required to be injective
(92_eei_decisions.md D1, log 1). -/
abbrev OpcodeMap := Mnemonic → Byte

namespace Config

/-- `MEMSIZE`: the number of memory cells (00_scope.md R4). -/
def memSize : Nat := 256

/-- `PC_RESET` (00_scope.md R4; 10_state.md R33). -/
def pcReset : Addr := 0x00#8

/-- `SP_RESET` (00_scope.md R4; 10_state.md R33). -/
def spReset : Addr := 0xF4#8

/-- `R7_RESET` (00_scope.md R4; 10_state.md R22, R33). -/
def r7Reset : Byte := 0xF4#8

/-- `R0_6_RESET` (00_scope.md R4). UNVERIFIED: the spec's own decision D3 (log 3). -/
def r0to6Reset : Byte := 0x00#8

/-- `FL_RESET` (00_scope.md R4). UNVERIFIED: the spec's own decision D4 (log 4). -/
def flReset : Byte := 0x00#8

/-- `MEM_RESET`: every cell after reset, so also what an unlisted address reads as
(00_scope.md R4; 10_state.md R33 "zero-filled"; log 20). -/
def memReset : Byte := 0x00#8

/-- `LOAD_BASE`: where the loader puts the first program byte (00_scope.md R4). -/
def loadBase : Nat := 0

end Config
end Sys2Proof
end

