-- ==== Sys2Proof/Machine/State.lean ====
section
/-! DEFINITION. The state of the core as plain data (10_state.md R20), the reasons a step can stop, and the state
after reset (10_state.md R33). -/

namespace Sys2Proof.Machine

/-- The two fatal conditions (60_exceptions.md R170). -/
inductive Cause where
  /-- The byte at `pc` is not one of the 13 opcode values (60_exceptions.md R171). -/
  | unsupportedInstruction
  /-- A register operand byte is above 7 (60_exceptions.md R172). UNVERIFIED: the spec's own decision D5 (log 5). -/
  | invalidRegisterIndex
  deriving DecidableEq, Repr

/-- The run status (10_state.md R28). -/
inductive RunStatus where
  /-- The engine takes steps. -/
  | running
  /-- Ended by HLT: the only final state. -/
  | halted
  /-- Ended by a fatal condition, with the offending byte and the `pc` of the instruction (60_exceptions.md R170).
  Never a final state. UNVERIFIED: the spec's own decision D6 (log 6). -/
  | faulted (cause : Cause) (info : Byte) (at_ : Addr)
  deriving DecidableEq, Repr

/-- Memory: the cells whose byte differs from the reset byte, by strictly rising address (log 20). What the 256 cells
hold is read by `Memory.read` (Ops.lean). -/
abbrev Memory := List Host.Cell

/-- Cells from address `lo` up: strictly rising, inside the 256 cells, none equal to what an unlisted address
reads as. -/
def Memory.wfFrom (lo : Nat) : List Host.Cell → Bool
  | [] => true
  | (a, v) :: rest =>
    decide (lo ≤ a) && decide (a < Config.memSize) && decide (v ≠ Config.memReset) && Memory.wfFrom (a + 1) rest

/-- The canonical form of memory: equal memories are equal lists. -/
def Memory.wf (m : Memory) : Bool := Memory.wfFrom 0 m

/-- The whole state of the core (10_state.md R20: "Nothing else is state"). -/
structure State where
  /-- `x[0]` to `x[7]` (10_state.md R21). -/
  regs : Vector Byte 8
  /-- The address of the instruction to fetch (10_state.md R23). -/
  pc : Addr
  /-- The address of the top item of the stack, separate from `x[7]` (10_state.md R22, R24; log 2). -/
  sp : Addr
  /-- Bit 0 EQUAL, bit 1 GREATER, bit 2 LESS (10_state.md R25). -/
  fl : Byte
  /-- The 256 cells of code, data and stack (10_state.md R27). -/
  mem : Memory
  /-- Whether the engine is stepping (10_state.md R28). -/
  run : RunStatus
  /-- The bytes printed so far, oldest first (10_state.md R29). -/
  out : List Byte
  deriving DecidableEq, Repr

/-- Why the model's step can stop. Both are safe: no step exists there (10_state.md R28; log 9). -/
inductive Fault where
  /-- Raised by `stepWith` on a state whose `run` is `halted`: "the engine takes no step". Safe. -/
  | stepAfterHalt
  /-- Raised by `stepWith` on a state whose `run` is `faulted`: "the engine takes no step". Safe. -/
  | stepAfterFault
  deriving DecidableEq, Repr

/-- What the model gives no meaning. -/
inductive Refusal where
  /-- An instruction without a meaning yet, raised by `exec` only. No arm raises it: all 13 are modelled. Safe. -/
  | notModelled (mnemonic : String)
  /-- Raised by `load` on an image longer than the 256 cells, which the host must not start
  (70_reset_and_hazards.md R191; log 11). Safe. -/
  | imageTooLong
  deriving DecidableEq, Repr

/-- The state right after reset, before the loader writes (10_state.md R33; 70_reset_and_hazards.md R190). -/
def State.reset : State where
  regs := #v[Config.r0to6Reset, Config.r0to6Reset, Config.r0to6Reset, Config.r0to6Reset,
             Config.r0to6Reset, Config.r0to6Reset, Config.r0to6Reset, Config.r7Reset]
  pc := Config.pcReset
  sp := Config.spReset
  fl := Config.flReset
  mem := []
  run := .running
  out := []

end Sys2Proof.Machine
end

