-- ==== Sys2Proof/Machine/Ops.lean ====
section
/-! DEFINITION. The named operations every meaning is written over: memory, registers, `pc`, the stack, the output
stream, and taking a fatal condition. -/

namespace Sys2Proof.Machine

/-- The byte listed for a cell, else the reset byte. -/
def Memory.lookupCell : Memory → Nat → Byte
  | [], _ => Config.memReset
  | (a, v) :: rest, k => if a = k then v else Memory.lookupCell rest k

/-- The list without the cell `k`. -/
def Memory.eraseCell : Memory → Nat → Memory
  | [], _ => []
  | (a, v) :: rest, k => if a = k then Memory.eraseCell rest k else (a, v) :: Memory.eraseCell rest k

/-- The list with `(k, v)` placed before the first higher address. -/
def Memory.insertCell : Memory → Nat → Byte → Memory
  | [], k, v => [(k, v)]
  | (a, w) :: rest, k, v => if k < a then (k, v) :: (a, w) :: rest else (a, w) :: Memory.insertCell rest k v

/-- `MemRead(addr, 1)`: the byte in cell `addr mod 256`; never fails and changes nothing (20_memory.md R51, R54). -/
def Memory.read (m : Memory) (addr : Nat) : Byte := Memory.lookupCell m (addr % Config.memSize)

/-- `MemWrite(addr, 1, v)`: cell `addr mod 256` takes the byte `v`, no other cell changes (20_memory.md R51). A cell
that takes the reset byte is no longer listed, which keeps the canonical form. -/
def Memory.write (m : Memory) (addr : Nat) (v : Byte) : Memory :=
  let k := addr % Config.memSize
  if v = Config.memReset then Memory.eraseCell m k else Memory.insertCell (Memory.eraseCell m k) k v

/-- `MemRead(addr, 1)` of a state (20_memory.md R51). -/
def State.memRead (s : State) (addr : Nat) : Byte := Memory.read s.mem addr

/-- `MemWrite(addr, 1, v)` of a state (20_memory.md R51). -/
def State.memWrite (s : State) (addr : Nat) (v : Byte) : State := { s with mem := Memory.write s.mem addr v }

/-- `x[i]` (00_scope.md R11; 10_state.md R21: eight plain registers, none hard-wired). -/
def State.reg (s : State) (i : RegIdx) : Byte := s.regs[i]

/-- `x[i] <- v` (00_scope.md R11). -/
def State.setReg (s : State) (i : RegIdx) (v : Byte) : State := { s with regs := s.regs.set i v }

/-- `pc <- target` (00_scope.md R11). -/
def State.setPc (s : State) (target : Addr) : State := { s with pc := target }

/-- `pc <- (pc + n) mod 256` (10_state.md R23; 30_encoding.md R91; log 8). -/
def State.advance (s : State) (n : Nat) : State := s.setPc (s.pc + BitVec.ofNat 8 n)

/-- `fl <- v` (00_scope.md R11). -/
def State.setFl (s : State) (v : Byte) : State := { s with fl := v }

/-- `run <- r` (00_scope.md R11). -/
def State.setRun (s : State) (r : RunStatus) : State := { s with run := r }

/-- The cell the next push writes: `(sp - 1) mod 256` (10_state.md R24; 42_stack.md R130). -/
def State.pushAddr (s : State) : Addr := s.sp - 1#8

/-- Push one byte: pre-decrement `sp`, then write at the new `sp` (10_state.md R24; 42_stack.md R130). -/
def State.push (s : State) (v : Byte) : State := { s with sp := s.pushAddr }.memWrite s.pushAddr.toNat v

/-- The top item of the stack, `mem[sp]` (10_state.md R24). -/
def State.stackTop (s : State) : Byte := s.memRead s.sp.toNat

/-- Drop the top item: post-increment `sp`; the cell keeps its byte (10_state.md R24; 42_stack.md R131). -/
def State.dropTop (s : State) : State := { s with sp := s.sp + 1#8 }

/-- `Out(v)`: append the byte `v` to the output stream (00_scope.md R11; 10_state.md R29). -/
def State.emit (s : State) (v : Byte) : State := { s with out := s.out ++ [v] }

/-- TAKING A FATAL CONDITION, the one shared operation: `run <- Faulted(cause, (info, pc))` and nothing else changes
(60_exceptions.md R171, R172, R175). There is no handler, no saved state and no return (R175, R176). UNVERIFIED: that
the rest of the state is unchanged is the spec's own decision D6 (log 6). -/
def raise (c : Cause) (info : Byte) (s : State) : Host.Outcome State Fault Refusal :=
  .next (s.setRun (.faulted c info s.pc))

end Sys2Proof.Machine
end

