-- ==== Sys2Proof/Machine/Operands.lean ====
section
/-! DEFINITION. The operand forms: a register operand, with its range check (30_encoding.md R84, R85). The other form,
the immediate of LDI, is the operand byte itself (R84) and needs no operation. -/

namespace Sys2Proof.Machine

/-- A register operand: continue with the register when the byte is 0 to 7, else raise InvalidRegisterIndex with the
whole byte, before anything is written (30_encoding.md R85; 60_exceptions.md R172). UNVERIFIED: the fault is the
spec's own decision D5 (log 5). -/
def withReg (b : Byte) (s : State) (k : RegIdx → Host.Outcome State Fault Refusal) :
    Host.Outcome State Fault Refusal :=
  if h : b.toNat < 8 then k ⟨b.toNat, h⟩ else raise .invalidRegisterIndex b s

/-- The two register operands of format RR: `op1` is checked first, and reported when both are out of range
(30_encoding.md R85; 60_exceptions.md R174). -/
def withRegs (a b : Byte) (s : State) (k : RegIdx → RegIdx → Host.Outcome State Fault Refusal) :
    Host.Outcome State Fault Refusal :=
  withReg a s fun i => withReg b s fun j => k i j

end Sys2Proof.Machine
end

