-- ==== Sys2Proof/Machine/Arithmetic.lean ====
section
/-! DEFINITION. The arithmetic instructions ADD and MULT (41_arithmetic.md): 8-bit results, no flag. -/

namespace Sys2Proof.Machine

/-- The sum truncated to 8 bits (41_arithmetic.md R120, R122). -/
def aluAdd (u v : Byte) : Byte := BitVec.ofNat 8 (u.toNat + v.toNat)

/-- The low 8 bits of the product (41_arithmetic.md R121, R122). -/
def aluMult (u v : Byte) : Byte := BitVec.ofNat 8 (u.toNat * v.toNat)

/-- ADD: `x[a] <- (x[a] + x[b]) mod 256; pc <- (pc + 3) mod 256`, both operands read before the write
(41_arithmetic.md R120). -/
def execAdd (a b : Byte) (s : State) : Host.Outcome State Fault Refusal :=
  withRegs a b s fun i j => .next ((s.setReg i (aluAdd (s.reg i) (s.reg j))).advance 3)

/-- MULT: `x[a] <- (x[a] * x[b]) mod 256; pc <- (pc + 3) mod 256` (41_arithmetic.md R121). -/
def execMult (a b : Byte) (s : State) : Host.Outcome State Fault Refusal :=
  withRegs a b s fun i j => .next ((s.setReg i (aluMult (s.reg i) (s.reg j))).advance 3)

end Sys2Proof.Machine
end

