-- ==== Sys2Proof/Machine/Flags.lean ====
section
/-! DEFINITION. The flags register: its three bits, the value CMP writes and the tests of JEQ and JNE
(10_state.md R25; 44_compare.md R150; 43_control_transfer.md R143, R144). -/

namespace Sys2Proof.Machine

/-- `FL_E`, EQUAL, bit 0 (10_state.md R25). -/
def flE : Byte := 0x01#8

/-- `FL_G`, GREATER, bit 1 (10_state.md R25; 90_conflicts.md C3). -/
def flG : Byte := 0x02#8

/-- `FL_L`, LESS, bit 2 (10_state.md R25). -/
def flL : Byte := 0x04#8

/-- The whole new value of `fl` after comparing `u = x[a]` with `v = x[b]`, as unsigned numbers (44_compare.md R150).
UNVERIFIED: that the first operand is the subject is the spec's own decision D9 (log 14). -/
def compareFlags (u v : Byte) : Byte :=
  if u = v then flE else if v.toNat < u.toNat then flG else flL

/-- JEQ is taken: bit 0 is set, whatever the other bits are (43_control_transfer.md R143; 90_conflicts.md C6). -/
def equalSet (fl : Byte) : Bool := decide (fl &&& flE ≠ 0#8)

/-- JNE is taken: bit 1 or bit 2 is set, whatever the other bits are (43_control_transfer.md R144). -/
def greaterOrLessSet (fl : Byte) : Bool := decide (fl &&& (flG ||| flL) ≠ 0#8)

end Sys2Proof.Machine
end

