-- ==== Sys2Proof/Machine/Compare.lean ====
section
/-! DEFINITION. The comparison instruction CMP (44_compare.md). -/

namespace Sys2Proof.Machine

/-- CMP: all 8 bits of `fl` are written, with exactly one of EQUAL, GREATER, LESS set; `pc <- (pc + 3) mod 256`
(44_compare.md R150). -/
def execCmp (a b : Byte) (s : State) : Host.Outcome State Fault Refusal :=
  withRegs a b s fun i j => .next ((s.setFl (compareFlags (s.reg i) (s.reg j))).advance 3)

end Sys2Proof.Machine
end

