-- ==== Sys2Proof/Machine/ControlTransfer.lean ====
section
/-! DEFINITION. The control-transfer instructions CALL, RET, JMP, JEQ and JNE (43_control_transfer.md). A target is the
8-bit value of a register or of the stack top, used as it is (R145). -/

namespace Sys2Proof.Machine

/-- CALL: `sp <- (sp - 1) mod 256; MemWrite(sp, 1, (pc + 2) mod 256); pc <- x[r]` (43_control_transfer.md R140). -/
def execCall (r : Byte) (s : State) : Host.Outcome State Fault Refusal :=
  withReg r s fun i => .next ((s.push (s.pc + 2#8)).setPc (s.reg i))

/-- RET: `pc <- MemRead(sp, 1); sp <- (sp + 1) mod 256` (43_control_transfer.md R141). -/
def execRet (s : State) : Host.Outcome State Fault Refusal :=
  .next ((s.setPc s.stackTop).dropTop)

/-- JMP: `pc <- x[r]` (43_control_transfer.md R142). -/
def execJmp (r : Byte) (s : State) : Host.Outcome State Fault Refusal :=
  withReg r s fun i => .next (s.setPc (s.reg i))

/-- The state after a two-byte conditional jump to `target` (43_control_transfer.md R143, R144). -/
def branch (taken : Bool) (target : Addr) (s : State) : State :=
  if taken then s.setPc target else s.advance 2

/-- JEQ: to `x[r]` if bit 0 of `fl` is set, else `pc + 2`; the register index is checked either way
(43_control_transfer.md R143; 30_encoding.md R85). -/
def execJeq (r : Byte) (s : State) : Host.Outcome State Fault Refusal :=
  withReg r s fun i => .next (branch (equalSet s.fl) (s.reg i) s)

/-- JNE: to `x[r]` if bit 1 or bit 2 of `fl` is set, else `pc + 2`; it is not "bit 0 clear"
(43_control_transfer.md R144). -/
def execJne (r : Byte) (s : State) : Host.Outcome State Fault Refusal :=
  withReg r s fun i => .next (branch (greaterOrLessSet s.fl) (s.reg i) s)

end Sys2Proof.Machine
end

