-- ==== Sys2Proof/Machine/DataMovement.lean ====
section
/-! DEFINITION. The data-movement instructions LDI and PRN (40_data_movement.md). -/

namespace Sys2Proof.Machine

/-- LDI: `x[r] <- imm8; pc <- (pc + 3) mod 256` (40_data_movement.md R110). -/
def execLdi (r imm : Byte) (s : State) : Host.Outcome State Fault Refusal :=
  withReg r s fun i => .next ((s.setReg i imm).advance 3)

/-- PRN: `Out(x[r]); pc <- (pc + 2) mod 256` (40_data_movement.md R111). -/
def execPrn (r : Byte) (s : State) : Host.Outcome State Fault Refusal :=
  withReg r s fun i => .next ((s.emit (s.reg i)).advance 2)

end Sys2Proof.Machine
end

