-- ==== Sys2Proof/Machine/Halt.lean ====
section
/-! DEFINITION. The halt instruction HLT (45_halt.md). -/

namespace Sys2Proof.Machine

/-- HLT: `run <- Halted; pc <- (pc + 1) mod 256` (45_halt.md R160). -/
def execHlt (s : State) : Host.Outcome State Fault Refusal :=
  .next ((s.setRun .halted).advance 1)

end Sys2Proof.Machine
end

