-- ==== Sys2Proof/Machine/Stack.lean ====
section
/-! DEFINITION. The stack instructions PUSH and POP (42_stack.md). -/

namespace Sys2Proof.Machine

/-- PUSH: `sp <- (sp - 1) mod 256; MemWrite(sp, 1, x[r]); pc <- (pc + 2) mod 256` (42_stack.md R130). -/
def execPush (r : Byte) (s : State) : Host.Outcome State Fault Refusal :=
  withReg r s fun i => .next ((s.push (s.reg i)).advance 2)

/-- POP: `x[r] <- MemRead(sp, 1); sp <- (sp + 1) mod 256; pc <- (pc + 2) mod 256` (42_stack.md R131). -/
def execPop (r : Byte) (s : State) : Host.Outcome State Fault Refusal :=
  withReg r s fun i => .next ((s.setReg i s.stackTop).dropTop.advance 2)

end Sys2Proof.Machine
end

