-- ==== Sys2Proof/Syntax.lean ====
section
/-! DEFINITION. The instructions: one constructor per row of opcode_table.json. -/

namespace Sys2Proof

/-- An instruction with its operand bytes as they stand in memory (30_encoding.md R80, R84). A register operand
is kept as the whole byte, because all 8 bits of it are checked (R85): a byte above 7 is a well-defined instruction
word whose execution raises InvalidRegisterIndex (log 10). -/
inductive Instr where
  /-- LOAD-IMMEDIATE, format RI (40_data_movement.md R110). -/
  | ldi (r imm : Byte)
  /-- PRINT, format R (40_data_movement.md R111). -/
  | prn (r : Byte)
  /-- ADD, format RR (41_arithmetic.md R120). -/
  | add (a b : Byte)
  /-- MULTIPLY, format RR (41_arithmetic.md R121). -/
  | mult (a b : Byte)
  /-- PUSH, format R (42_stack.md R130). -/
  | push (r : Byte)
  /-- POP, format R (42_stack.md R131). -/
  | pop (r : Byte)
  /-- CALL, format R (43_control_transfer.md R140). -/
  | call (r : Byte)
  /-- RETURN, format N (43_control_transfer.md R141). -/
  | ret
  /-- JUMP, format R (43_control_transfer.md R142). -/
  | jmp (r : Byte)
  /-- JUMP-IF-EQUAL, format R (43_control_transfer.md R143). -/
  | jeq (r : Byte)
  /-- JUMP-IF-NOT-EQUAL, format R (43_control_transfer.md R144). -/
  | jne (r : Byte)
  /-- COMPARE, format RR (44_compare.md R150). -/
  | cmp (a b : Byte)
  /-- HALT, format N (45_halt.md R160). -/
  | hlt
  deriving DecidableEq, Repr

end Sys2Proof
end

