-- ==== Sys2Proof/WellFormed.lean ====
section
/-! DEFINITION. Well-formed instructions: every register operand names one of the eight registers. -/

namespace Sys2Proof

/-- A byte that is a legal register index, 0 to 7 (30_encoding.md R85: all 8 bits are checked, never reduced mod 8). -/
def isRegByte (b : Byte) : Bool := decide (b.toNat < 8)

/-- The bytes an instruction's format uses as register indices, in the order they are checked
(30_encoding.md R85: `op1` then `op2` for format RR; the `imm8` of LDI is never checked). -/
def Instr.registerOperands : Instr → List Byte
  | .ldi r _ => [r]
  | .prn r => [r]
  | .add a b => [a, b]
  | .mult a b => [a, b]
  | .push r => [r]
  | .pop r => [r]
  | .call r => [r]
  | .ret => []
  | .jmp r => [r]
  | .jeq r => [r]
  | .jne r => [r]
  | .cmp a b => [a, b]
  | .hlt => []

/-- Every register operand is in range (30_encoding.md R85). Executing an ill-formed instruction is defined: it
raises InvalidRegisterIndex. -/
def Instr.wellFormed (i : Instr) : Bool := i.registerOperands.all isRegByte

end Sys2Proof
end

