-- ==== Sys2Proof/Decode.lean ====
section
/-! DEFINITION. Decoding and encoding (30_encoding.md R80 to R91). Everything takes the opcode map OPC as an argument
(92_eei_decisions.md D1); the default map is `opc`. -/

namespace Sys2Proof

/-- The default opcode map. PRESUMED: the standard LS-8 values, which 30_encoding.md R82 itself marks as from
general knowledge (92_eei_decisions.md D1, log 1). -/
def opc : OpcodeMap
  | .ldi => 0x82#8
  | .prn => 0x47#8
  | .add => 0xA0#8
  | .mult => 0xA2#8
  | .push => 0x45#8
  | .pop => 0x46#8
  | .call => 0x50#8
  | .ret => 0x11#8
  | .jmp => 0x54#8
  | .jeq => 0x55#8
  | .jne => 0x56#8
  | .cmp => 0xA7#8
  | .hlt => 0x01#8

/-- The 13 mnemonics (30_encoding.md R82). -/
def allMnemonics : List Mnemonic :=
  [.ldi, .prn, .add, .mult, .push, .pop, .call, .ret, .jmp, .jeq, .jne, .cmp, .hlt]

/-- The four instruction formats (30_encoding.md R80). -/
inductive Format where
  /-- opcode only -/
  | N
  /-- opcode, register -/
  | R
  /-- opcode, register A, register B -/
  | RR
  /-- opcode, register, immediate -/
  | RI
  deriving DecidableEq, Repr

/-- The format of each instruction (30_encoding.md R82). -/
def formatOf : Mnemonic → Format
  | .ldi => .RI
  | .prn => .R
  | .add => .RR
  | .mult => .RR
  | .push => .R
  | .pop => .R
  | .call => .R
  | .ret => .N
  | .jmp => .R
  | .jeq => .R
  | .jne => .R
  | .cmp => .RR
  | .hlt => .N

/-- The length in bytes that a format gives (30_encoding.md R80). -/
def formatLength : Format → Nat
  | .N => 1
  | .R => 2
  | .RR => 3
  | .RI => 3

/-- The length in bytes of an instruction, which is also what a non-transferring instruction adds to `pc`
(30_encoding.md R88). -/
def lengthOf (m : Mnemonic) : Nat := formatLength (formatOf m)

/-- The mnemonic an opcode byte selects, by a match on all 8 bits (30_encoding.md R81); `none` for an unsupported
opcode (R86). -/
def lookup (o : OpcodeMap) (b : Byte) : Option Mnemonic :=
  allMnemonics.find? fun m => decide (o m = b)

/-- The instruction a mnemonic makes with its operand bytes (30_encoding.md R80, R84); a format with fewer operands
takes no part of the bytes it does not have. -/
def assemble (m : Mnemonic) (op1 op2 : Byte) : Instr :=
  match m with
  | .ldi => .ldi op1 op2
  | .prn => .prn op1
  | .add => .add op1 op2
  | .mult => .mult op1 op2
  | .push => .push op1
  | .pop => .pop op1
  | .call => .call op1
  | .ret => .ret
  | .jmp => .jmp op1
  | .jeq => .jeq op1
  | .jne => .jne op1
  | .cmp => .cmp op1 op2
  | .hlt => .hlt

/-- What decoding answers: an instruction, or the opcode byte it rejects by name (30_encoding.md R86). -/
inductive Decoded where
  | instr (i : Instr)
  | unsupported (opcode : Byte)
  deriving DecidableEq, Repr

/-- Decoding of the three bytes that stand at `pc`, `pc + 1` and `pc + 2` (30_encoding.md R81, R84, R86). Total: memory
wraps, so there are always three bytes (R91); bytes beyond the instruction's length take no part. -/
def decodeWith (o : OpcodeMap) (opcode op1 op2 : Byte) : Decoded :=
  match lookup o opcode with
  | some m => .instr (assemble m op1 op2)
  | none => .unsupported opcode

/-- Decoding under the default opcode map. -/
def decode (opcode op1 op2 : Byte) : Decoded := decodeWith opc opcode op1 op2

/-- The mnemonic of an instruction. -/
def Instr.mnemonic : Instr → Mnemonic
  | .ldi _ _ => .ldi
  | .prn _ => .prn
  | .add _ _ => .add
  | .mult _ _ => .mult
  | .push _ => .push
  | .pop _ => .pop
  | .call _ => .call
  | .ret => .ret
  | .jmp _ => .jmp
  | .jeq _ => .jeq
  | .jne _ => .jne
  | .cmp _ _ => .cmp
  | .hlt => .hlt

/-- The operand bytes of an instruction in encoding order (30_encoding.md R80). -/
def operandBytes : Instr → List Byte
  | .ldi r imm => [r, imm]
  | .prn r => [r]
  | .add a b => [a, b]
  | .mult a b => [a, b]
  | .push r => [r]
  | .pop r => [r]
  | .call r => [r]
  | .ret => []
  | .jmp r => [r]
  | .jeq r => [r]
  | .jne r => [r]
  | .cmp a b => [a, b]
  | .hlt => []

/-- The bytes of an instruction at ascending addresses (30_encoding.md R80; 20_memory.md R52). -/
def encodeWith (o : OpcodeMap) (i : Instr) : List Byte := o i.mnemonic :: operandBytes i

/-- Encoding under the default opcode map. -/
def encode (i : Instr) : List Byte := encodeWith opc i

/-- Byte `k` of an instruction whose bits are `w`, as opcode_table.json numbers them (bit 0 is the least significant
bit of the first byte), every bit from `nbits` up being 0. -/
def tableByte (nbits w k : Nat) : Byte := BitVec.ofNat 8 (w % 2 ^ nbits / 256 ^ k)

/-- The instruction the decoder reads from the table word `w` of `nbits` bits. -/
def decodeTableWord (nbits w : Nat) : Option Instr :=
  match decode (tableByte nbits w 0) (tableByte nbits w 1) (tableByte nbits w 2) with
  | .instr i => some i
  | .unsupported _ => none

end Sys2Proof
end

