-- ==== Sys2Proof/Machine/Fetch.lean ====
section
/-! DEFINITION. Fetching the bytes of an instruction from memory (30_encoding.md R84, R87, R91). -/

namespace Sys2Proof.Machine

/-- The byte at `(pc + k) mod 256` (30_encoding.md R84, R91). -/
def State.instrByte (s : State) (k : Nat) : Byte := s.memRead (s.pc.toNat + k)

/-- The instruction at `pc`, or the unsupported opcode byte there: opcode at `pc`, operands at `pc + 1` and `pc + 2`
(30_encoding.md R84, R87). All of it is read before the instruction has any effect (20_memory.md R57; log 7). Reads
have no side effect (20_memory.md R54), so passing the decoder a byte it does not use changes nothing (log 22). -/
def fetch (o : OpcodeMap) (s : State) : Decoded :=
  decodeWith o (s.instrByte 0) (s.instrByte 1) (s.instrByte 2)

/-- The three bytes of a table word stored at `pc`, `pc + 1` and `pc + 2`, in memory order. -/
def State.placeWord (s : State) (nbits w : Nat) : State :=
  ((s.memWrite s.pc.toNat (tableByte nbits w 0)).memWrite (s.pc.toNat + 1) (tableByte nbits w 1)).memWrite
    (s.pc.toNat + 2) (tableByte nbits w 2)

end Sys2Proof.Machine
end

