-- ==== Sys2Proof/Machine/Engine.lean ====
section
/-! DEFINITION. The engine's loop body: one whole instruction, or one fatal condition (30_encoding.md R87). -/

namespace Sys2Proof.Machine

/-- What the engine does with what it fetched: run the instruction, or raise UnsupportedInstruction
(30_encoding.md R86, R87; 60_exceptions.md R171). -/
def runFetched (d : Decoded) (s : State) : Host.Outcome State Fault Refusal :=
  match d with
  | .instr i => exec i s
  | .unsupported opcode => raise .unsupportedInstruction opcode s

/-- One step under the opcode map `o` (30_encoding.md R87). A step exists only in `Running` (10_state.md R28), so a
stopped engine stops the model with a fault of its own name. DEDUCED (log 9). -/
def stepWith (o : OpcodeMap) (s : State) : Host.Outcome State Fault Refusal :=
  match s.run with
  | .running => runFetched (fetch o s) s
  | .halted => .fault .stepAfterHalt
  | .faulted _ _ _ => .fault .stepAfterFault

end Sys2Proof.Machine
end

