-- ==== Sys2Proof/Machine/Step.lean ====
section
/-! DEFINITION. The step of the machine under the default opcode map (30_encoding.md R87). -/

namespace Sys2Proof.Machine

/-- One step of the core, with the default opcode map (30_encoding.md R82, R87). -/
def step (s : State) : Host.Outcome State Fault Refusal := stepWith opc s

/-- `s` with the table word `w` stored where the next step fetches, and the engine running, so that the very next step
runs that instruction. It stands for the host's load of a program (log 21); it is no event of the machine. -/
def State.withFetchWord (s : State) (nbits w : Nat) : State := (s.placeWord nbits w).setRun .running

end Sys2Proof.Machine
end

