-- ==== Sys2Proof/Machine/Arbiter.lean ====
section
/-! DEFINITION. The unified memory arbiter: the accesses of one step to the single memory, in the order they are made
(20_memory.md R57, R61). -/

namespace Sys2Proof.Machine

/-- One access to the single port of the memory, by its requester (20_memory.md R61). -/
inductive Access where
  /-- The fetch unit reads an instruction byte. -/
  | fetchRead (a : Addr)
  /-- The stack unit reads: POP, RET. -/
  | stackRead (a : Addr)
  /-- The stack unit writes: PUSH, CALL. -/
  | stackWrite (a : Addr)
  deriving DecidableEq, Repr

/-- The data access an instruction makes when it completes: at most one (20_memory.md R57). -/
def dataAccess (i : Instr) (s : State) : List Access :=
  match i with
  | .ldi _ _ => []
  | .prn _ => []
  | .add _ _ => []
  | .mult _ _ => []
  | .push _ => [.stackWrite s.pushAddr]
  | .pop _ => [.stackRead s.sp]
  | .call _ => [.stackWrite s.pushAddr]
  | .ret => [.stackRead s.sp]
  | .jmp _ => []
  | .jeq _ => []
  | .jne _ => []
  | .cmp _ _ => []
  | .hlt => []

/-- The reads of the first `n` instruction bytes, opcode first (20_memory.md R57). -/
def fetchReads (n : Nat) (s : State) : List Access :=
  (List.range n).map fun k => .fetchRead (s.pc + BitVec.ofNat 8 k)

/-- The accesses of the step from `s` in order: the opcode byte only for an unsupported opcode, else all instruction
bytes and then the data access; a step that faults makes no data access (20_memory.md R57, R61; 60_exceptions.md R172;
30_encoding.md R88). UNVERIFIED: fetch before data is the spec's own decision D7 (log 7). -/
def accesses (o : OpcodeMap) (s : State) : List Access :=
  match fetch o s with
  | .unsupported _ => fetchReads 1 s
  | .instr i => fetchReads (lengthOf i.mnemonic) s ++ if i.wellFormed then dataAccess i s else []

end Sys2Proof.Machine
end

