-- ==== Sys2Proof/Machine/HostPort.lean ====
section
/-! DEFINITION. What the outside world does to the core and sees of it: reset, load, start, the output text and the
status ports (00_scope.md R8; 70_reset_and_hazards.md R190, R191; 10_state.md R29). -/

namespace Sys2Proof.Machine

/-- The `Reset` event: whatever the state was, every piece takes its reset value; the only exit from `Halted` and
`Faulted` (70_reset_and_hazards.md R190; log 13). -/
def hostReset (_ : State) : State := State.reset

/-- The bytes of an image written to ascending cells from `base` (70_reset_and_hazards.md R191). -/
def Memory.loadFrom (base : Nat) : List Byte → Memory → Memory
  | [], m => m
  | b :: rest, m => Memory.loadFrom (base + 1) rest (Memory.write m base b)

/-- The `Load(image)` event: the image from address 0 upward, nothing but `mem` written; an image longer than the 256
cells is refused (70_reset_and_hazards.md R191). UNVERIFIED: the limit is the spec's own decision D12 (log 11). -/
def load (image : List Byte) (s : State) : Host.Outcome State Fault Refusal :=
  if image.length ≤ Config.memSize then .next { s with mem := Memory.loadFrom Config.loadBase image s.mem }
  else .refused .imageTooLong

/-- The `Start` event: it only marks the end of loading; `run` is `Running` since reset, and a halted engine does not
start (00_scope.md R8; 92_eei_decisions.md D16; log 21). -/
def start (s : State) : State := s

/-- The launch state of a run: the reset state with the image in memory, started
(70_reset_and_hazards.md R190, R191, R196). -/
def launch (image : List Byte) : Host.Outcome State Fault Refusal :=
  match load image State.reset with
  | .next s => .next (start s)
  | .fault r => .fault r
  | .refused r => .refused r

/-- The `out_valid` and `out_data` ports over the step from `s` to `t`: the `Out(v)` events, the bytes `t` has printed
beyond those of `s` (00_scope.md R8). -/
def outEvents (s t : State) : List Byte := t.out.drop s.out.length

/-- The line the host shows for one printed byte: its decimal numeral and a line feed (10_state.md R29).
UNVERIFIED: the exact text is the spec's own decision D10 (log 15). -/
def decimalLine (v : Byte) : List Char := Nat.toDigits 10 v.toNat ++ ['\n']

/-- The text of the whole output stream, one line per PRN in execution order (10_state.md R29). -/
def State.outText (s : State) : List Char := s.out.flatMap decimalLine

/-- The numeric cause code (60_exceptions.md R170; log 6). -/
def Cause.code : Cause → BitVec 1
  | .unsupportedInstruction => 0#1
  | .invalidRegisterIndex => 1#1

/-- The `halted` port (00_scope.md R8). -/
def State.haltedPort (s : State) : Bool := decide (s.run = .halted)

/-- The `fault`, `fault_cause` and `fault_info` ports: `none` is `fault = 0`; the 16-bit info is kept as the pair of the
offending byte and the `pc` (00_scope.md R8; 60_exceptions.md R170). DESIGN CHOICE: the packing is left open (log 12). -/
def State.faultPorts (s : State) : Option (BitVec 1 × Byte × Addr) :=
  match s.run with
  | .running => none
  | .halted => none
  | .faulted c info p => some (c.code, info, p)

end Sys2Proof.Machine
end

