-- ==== Sys2Proof/Safety.lean ====
section
/-! DEFINITION. What counts as a safe state and a safe run, in the terms the statements use. -/

namespace Sys2Proof.Machine

/-- The run ended normally: `Halted` is the only final state (10_state.md R28; 70_reset_and_hazards.md R196). -/
def State.final (s : State) : Bool := decide (s.run = .halted)

/-- The run has gone wrong: the engine is `Faulted` (60_exceptions.md R175). -/
def State.goneWrong (s : State) : Bool :=
  match s.run with
  | .running => false
  | .halted => false
  | .faulted _ _ _ => true

/-- `fl` is one of its four reachable values (10_state.md R26). -/
def flLegal (fl : Byte) : Bool := decide (fl = 0#8 ∨ fl = flE ∨ fl = flG ∨ fl = flL)

/-- Exactly one of EQUAL, GREATER, LESS is set and nothing else: the value of `fl` once a CMP has executed
(10_state.md R26). -/
def flCompared (fl : Byte) : Bool := decide (fl = flE ∨ fl = flG ∨ fl = flL)

/-- What a `Faulted` status says is so: `pc` still holds the address of the faulting instruction, and the recorded
byte is the unsupported opcode there, or a register operand above 7 of the instruction there
(60_exceptions.md R171, R172, R175). -/
def State.faultTruthful (o : OpcodeMap) (s : State) : Bool :=
  match s.run with
  | .running => true
  | .halted => true
  | .faulted .unsupportedInstruction info p => decide (p = s.pc ∧ fetch o s = .unsupported info)
  | .faulted .invalidRegisterIndex info p =>
    decide (p = s.pc) && decide (¬ info.toNat < 8) &&
      match fetch o s with
      | .instr i => decide (i.registerOperands.find? (fun b => !isRegByte b) = some info)
      | .unsupported _ => false

/-- The invariant of the machine: memory in canonical form, `fl` legal, and a fault record that is true. -/
def State.inv (o : OpcodeMap) (s : State) : Bool := Memory.wf s.mem && flLegal s.fl && s.faultTruthful o

/-- The first `n` steps from `s` stop by halting or keep running: they never fault. -/
def safeFor (o : OpcodeMap) : Nat → State → Bool
  | 0, s => !s.goneWrong
  | n + 1, s =>
    !s.goneWrong &&
      match stepWith o s with
      | .next t => safeFor o n t
      | .fault _ => true
      | .refused _ => false

/-- Two values of `fl` that no instruction can tell apart: equal, or each GREATER or LESS
(43_control_transfer.md R145: no instruction distinguishes G from L). -/
def flAlike (f g : Byte) : Prop := f = g ∨ ((f = flG ∨ f = flL) ∧ (g = flG ∨ g = flL))

/-- Two states equal but for GREATER standing for LESS in `fl`. -/
def sameUpToOrder (s t : State) : Prop := flAlike s.fl t.fl ∧ s = { t with fl := s.fl }

/-- Every byte of memory reads in `t` as it read in `s`. -/
def keepsMemory (s t : State) : Prop := ∀ a : Nat, t.memRead a = s.memRead a

/-- Every byte of memory but the one in the cell `c` reads in `t` as it read in `s`. -/
def keepsMemoryBut (c : Addr) (s t : State) : Prop := ∀ a : Nat, a % 256 ≠ c.toNat → t.memRead a = s.memRead a

/-- Every general register reads in `t` as it read in `s`. -/
def keepsRegs (s t : State) : Prop := ∀ k : RegIdx, t.reg k = s.reg k

/-- Every general register but `x[i]` reads in `t` as it read in `s`. -/
def keepsRegsBut (i : RegIdx) (s t : State) : Prop := ∀ k : RegIdx, k ≠ i → t.reg k = s.reg k

/-- `pc` in `t` is `(pc + n) mod 256` of `s`. -/
def pcAdvances (n : Nat) (s t : State) : Prop := t.pc.toNat = (s.pc.toNat + n) % 256

/-- Executing `i` raises InvalidRegisterIndex for the operand byte `b`: `run` records it with the `pc`, and no other
state changes (60_exceptions.md R172). -/
def raisesIndexFault (i : Instr) (b : Byte) (s : State) : Prop :=
  exec i s = .next { s with run := .faulted .invalidRegisterIndex b s.pc }

/-- The register an instruction writes, as its operand byte (10_state.md R21). -/
def destination : Instr → Option Byte
  | .ldi r _ => some r
  | .prn _ => none
  | .add a _ => some a
  | .mult a _ => some a
  | .push _ => none
  | .pop r => some r
  | .call _ => none
  | .ret => none
  | .jmp _ => none
  | .jeq _ => none
  | .jne _ => none
  | .cmp _ _ => none
  | .hlt => none

/-- The registers an instruction reads when `fl` is `f`, as operand bytes; JEQ and JNE read theirs only when taken
(10_state.md R21). -/
def sources (f : Byte) : Instr → List Byte
  | .ldi _ _ => []
  | .prn r => [r]
  | .add a b => [a, b]
  | .mult a b => [a, b]
  | .push r => [r]
  | .pop _ => []
  | .call r => [r]
  | .ret => []
  | .jmp r => [r]
  | .jeq r => if f.getLsbD 0 then [r] else []
  | .jne r => if f.getLsbD 1 || f.getLsbD 2 then [r] else []
  | .cmp a b => [a, b]
  | .hlt => []

/-- The instruction stores a byte: PUSH or CALL (10_state.md R27; 20_memory.md R57). -/
def stores : Instr → Bool
  | .ldi _ _ => false
  | .prn _ => false
  | .add _ _ => false
  | .mult _ _ => false
  | .push _ => true
  | .pop _ => false
  | .call _ => true
  | .ret => false
  | .jmp _ => false
  | .jeq _ => false
  | .jne _ => false
  | .cmp _ _ => false
  | .hlt => false

/-- The new `sp` of a completed instruction, as a number (10_state.md R24). -/
def spAfter (sp : Nat) : Instr → Nat
  | .ldi _ _ => sp
  | .prn _ => sp
  | .add _ _ => sp
  | .mult _ _ => sp
  | .push _ => (sp + 255) % 256
  | .pop _ => (sp + 1) % 256
  | .call _ => (sp + 255) % 256
  | .ret => (sp + 1) % 256
  | .jmp _ => sp
  | .jeq _ => sp
  | .jne _ => sp
  | .cmp _ _ => sp
  | .hlt => sp

end Sys2Proof.Machine
end

