-- ==== Sys2Proof/Certificates/Slice0/Obligations.lean ====
section
/-! DEFINITION. The statements for the provers. Each docstring cites the rule it formalises; a clause that rests on a
decision the spec marks as its own (92_eei_decisions.md) names that decision and the log entry. -/

open Sys2Proof Sys2Proof.Machine

/-! ## One statement per instruction: its result, its frame, and the fault on a register operand above 7 -/

/-- 40_data_movement.md R110. The clause on operands above 7 rests on decision D5 (log 5), `x[7]` being an ordinary
register on D2 (log 2). -/
def Obligations.LdiLoadsImmediate : Prop :=
  (∀ (r imm : Byte) (s : State) (h : r.toNat < 8), ∃ t, exec (.ldi r imm) s = .next t ∧
    t.reg ⟨r.toNat, h⟩ = imm ∧ keepsRegsBut ⟨r.toNat, h⟩ s t ∧ pcAdvances 3 s t ∧ t.sp = s.sp ∧ t.fl = s.fl ∧
    keepsMemory s t ∧ t.run = s.run ∧ t.out = s.out) ∧
  (∀ (r imm : Byte) (s : State), 7 < r.toNat → raisesIndexFault (.ldi r imm) r s)

/-- 40_data_movement.md R111; the text shown for the byte is decision D10 (log 15). The clause on operands above 7
rests on decision D5 (log 5). -/
def Obligations.PrnAppendsRegister : Prop :=
  (∀ (r : Byte) (s : State) (h : r.toNat < 8), ∃ t, exec (.prn r) s = .next t ∧
    t.out = s.out ++ [s.reg ⟨r.toNat, h⟩] ∧ t.outText = s.outText ++ decimalLine (s.reg ⟨r.toNat, h⟩) ∧
    keepsRegs s t ∧ pcAdvances 2 s t ∧ t.sp = s.sp ∧ t.fl = s.fl ∧ keepsMemory s t ∧ t.run = s.run) ∧
  (∀ (r : Byte) (s : State), 7 < r.toNat → raisesIndexFault (.prn r) r s)

/-- 41_arithmetic.md R120. The clauses on operands above 7 rest on decision D5 (log 5). -/
def Obligations.AddWrapsIntoFirstRegister : Prop :=
  (∀ (a b : Byte) (s : State) (ha : a.toNat < 8) (hb : b.toNat < 8), ∃ t, exec (.add a b) s = .next t ∧
    (t.reg ⟨a.toNat, ha⟩).toNat = ((s.reg ⟨a.toNat, ha⟩).toNat + (s.reg ⟨b.toNat, hb⟩).toNat) % 256 ∧
    keepsRegsBut ⟨a.toNat, ha⟩ s t ∧ pcAdvances 3 s t ∧ t.sp = s.sp ∧ t.fl = s.fl ∧
    keepsMemory s t ∧ t.run = s.run ∧ t.out = s.out) ∧
  (∀ (a b : Byte) (s : State), 7 < a.toNat → raisesIndexFault (.add a b) a s) ∧
  (∀ (a b : Byte) (s : State), a.toNat < 8 → 7 < b.toNat → raisesIndexFault (.add a b) b s)

/-- 41_arithmetic.md R121. The clauses on operands above 7 rest on decision D5 (log 5). -/
def Obligations.MultWrapsIntoFirstRegister : Prop :=
  (∀ (a b : Byte) (s : State) (ha : a.toNat < 8) (hb : b.toNat < 8), ∃ t, exec (.mult a b) s = .next t ∧
    (t.reg ⟨a.toNat, ha⟩).toNat = ((s.reg ⟨a.toNat, ha⟩).toNat * (s.reg ⟨b.toNat, hb⟩).toNat) % 256 ∧
    keepsRegsBut ⟨a.toNat, ha⟩ s t ∧ pcAdvances 3 s t ∧ t.sp = s.sp ∧ t.fl = s.fl ∧
    keepsMemory s t ∧ t.run = s.run ∧ t.out = s.out) ∧
  (∀ (a b : Byte) (s : State), 7 < a.toNat → raisesIndexFault (.mult a b) a s) ∧
  (∀ (a b : Byte) (s : State), a.toNat < 8 → 7 < b.toNat → raisesIndexFault (.mult a b) b s)

/-- 42_stack.md R130. The byte goes to `pushAddr`, the cell `(sp - 1) mod 256`. The clause on operands above 7 rests on
decision D5 (log 5), that `x[7]` is not `sp` on D2 (log 2). -/
def Obligations.PushStoresBelowStackTop : Prop :=
  (∀ (r : Byte) (s : State) (h : r.toNat < 8), ∃ t, exec (.push r) s = .next t ∧
    s.pushAddr.toNat = (s.sp.toNat + 255) % 256 ∧ t.sp = s.pushAddr ∧
    t.memRead s.pushAddr.toNat = s.reg ⟨r.toNat, h⟩ ∧ keepsMemoryBut s.pushAddr s t ∧
    keepsRegs s t ∧ pcAdvances 2 s t ∧ t.fl = s.fl ∧ t.run = s.run ∧ t.out = s.out) ∧
  (∀ (r : Byte) (s : State), 7 < r.toNat → raisesIndexFault (.push r) r s)

/-- 42_stack.md R131. The clause on operands above 7 rests on decision D5 (log 5), that `x[7]` is not `sp` on D2
(log 2). -/
def Obligations.PopLoadsStackTop : Prop :=
  (∀ (r : Byte) (s : State) (h : r.toNat < 8), ∃ t, exec (.pop r) s = .next t ∧
    t.reg ⟨r.toNat, h⟩ = s.memRead s.sp.toNat ∧ keepsRegsBut ⟨r.toNat, h⟩ s t ∧
    t.sp.toNat = (s.sp.toNat + 1) % 256 ∧ pcAdvances 2 s t ∧ t.fl = s.fl ∧
    keepsMemory s t ∧ t.run = s.run ∧ t.out = s.out) ∧
  (∀ (r : Byte) (s : State), 7 < r.toNat → raisesIndexFault (.pop r) r s)

/-- 43_control_transfer.md R140. The return address goes to `pushAddr`, the cell `(sp - 1) mod 256`. The clause on
operands above 7 rests on decision D5 (log 5), that `x[7]` is not `sp` on D2 (log 2). -/
def Obligations.CallPushesReturnAddressAndJumps : Prop :=
  (∀ (r : Byte) (s : State) (h : r.toNat < 8), ∃ t, exec (.call r) s = .next t ∧
    s.pushAddr.toNat = (s.sp.toNat + 255) % 256 ∧ t.sp = s.pushAddr ∧
    (t.memRead s.pushAddr.toNat).toNat = (s.pc.toNat + 2) % 256 ∧ keepsMemoryBut s.pushAddr s t ∧
    t.pc = s.reg ⟨r.toNat, h⟩ ∧ keepsRegs s t ∧ t.fl = s.fl ∧ t.run = s.run ∧ t.out = s.out) ∧
  (∀ (r : Byte) (s : State), 7 < r.toNat → raisesIndexFault (.call r) r s)

/-- 43_control_transfer.md R141. -/
def Obligations.RetPopsProgramCounter : Prop :=
  ∀ s : State, ∃ t, exec .ret s = .next t ∧
    t.pc = s.memRead s.sp.toNat ∧ t.sp.toNat = (s.sp.toNat + 1) % 256 ∧
    keepsRegs s t ∧ t.fl = s.fl ∧ keepsMemory s t ∧ t.run = s.run ∧ t.out = s.out

/-- 43_control_transfer.md R142. The clause on operands above 7 rests on decision D5 (log 5). -/
def Obligations.JmpGoesToRegister : Prop :=
  (∀ (r : Byte) (s : State) (h : r.toNat < 8), ∃ t, exec (.jmp r) s = .next t ∧
    t.pc = s.reg ⟨r.toNat, h⟩ ∧ keepsRegs s t ∧ t.sp = s.sp ∧ t.fl = s.fl ∧
    keepsMemory s t ∧ t.run = s.run ∧ t.out = s.out) ∧
  (∀ (r : Byte) (s : State), 7 < r.toNat → raisesIndexFault (.jmp r) r s)

/-- 43_control_transfer.md R143, for every value of `fl` (the unreachable ones by decision D15, log 16). The clause on
operands above 7, also when the jump is not taken, rests on decision D5 (log 5). -/
def Obligations.JeqTestsEqualBit : Prop :=
  (∀ (r : Byte) (s : State) (h : r.toNat < 8), ∃ t, exec (.jeq r) s = .next t ∧
    (s.fl.getLsbD 0 = true → t.pc = s.reg ⟨r.toNat, h⟩) ∧ (s.fl.getLsbD 0 = false → pcAdvances 2 s t) ∧
    keepsRegs s t ∧ t.sp = s.sp ∧ t.fl = s.fl ∧ keepsMemory s t ∧ t.run = s.run ∧ t.out = s.out) ∧
  (∀ (r : Byte) (s : State), 7 < r.toNat → raisesIndexFault (.jeq r) r s)

/-- 43_control_transfer.md R144, for every value of `fl` (the unreachable ones by decision D15, log 16): taken when
bit 1 or bit 2 is set, so not taken at `fl = 0`. The clause on operands above 7, also when the jump is not taken, rests
on decision D5 (log 5). -/
def Obligations.JneTestsGreaterAndLessBits : Prop :=
  (∀ (r : Byte) (s : State) (h : r.toNat < 8), ∃ t, exec (.jne r) s = .next t ∧
    ((s.fl.getLsbD 1 || s.fl.getLsbD 2) = true → t.pc = s.reg ⟨r.toNat, h⟩) ∧
    ((s.fl.getLsbD 1 || s.fl.getLsbD 2) = false → pcAdvances 2 s t) ∧
    keepsRegs s t ∧ t.sp = s.sp ∧ t.fl = s.fl ∧ keepsMemory s t ∧ t.run = s.run ∧ t.out = s.out) ∧
  (∀ (r : Byte) (s : State), 7 < r.toNat → raisesIndexFault (.jne r) r s)

/-- 44_compare.md R150. That the first operand is the subject of GREATER and LESS is decision D9 (log 14). The clauses
on operands above 7 rest on decision D5 (log 5). -/
def Obligations.CmpSetsExactlyOneFlag : Prop :=
  (∀ (a b : Byte) (s : State) (ha : a.toNat < 8) (hb : b.toNat < 8), ∃ t, exec (.cmp a b) s = .next t ∧
    ((s.reg ⟨a.toNat, ha⟩).toNat = (s.reg ⟨b.toNat, hb⟩).toNat → t.fl = 0x01#8) ∧
    ((s.reg ⟨a.toNat, ha⟩).toNat > (s.reg ⟨b.toNat, hb⟩).toNat → t.fl = 0x02#8) ∧
    ((s.reg ⟨a.toNat, ha⟩).toNat < (s.reg ⟨b.toNat, hb⟩).toNat → t.fl = 0x04#8) ∧
    pcAdvances 3 s t ∧ keepsRegs s t ∧ t.sp = s.sp ∧ keepsMemory s t ∧ t.run = s.run ∧ t.out = s.out) ∧
  (∀ (a b : Byte) (s : State), 7 < a.toNat → raisesIndexFault (.cmp a b) a s) ∧
  (∀ (a b : Byte) (s : State), a.toNat < 8 → 7 < b.toNat → raisesIndexFault (.cmp a b) b s)

/-- 45_halt.md R160. That no step follows is decision D16 (log 9). -/
def Obligations.HltHalts : Prop :=
  ∀ s : State, ∃ t, exec .hlt s = .next t ∧ t.run = .halted ∧ pcAdvances 1 s t ∧
    keepsRegs s t ∧ t.sp = s.sp ∧ t.fl = s.fl ∧ keepsMemory s t ∧ t.out = s.out ∧
    ∀ o, stepWith o t = .fault .stepAfterHalt

/-! ## Faults and the step -/

/-- 30_encoding.md R85 and 60_exceptions.md R172, R174, resting on decisions D5 and D6 (log 5, log 6): an instruction
completes without a fault exactly when every register operand is 0 to 7; otherwise the first operand above 7, in
operand order, is the one reported. -/
def Obligations.FirstBadRegisterOperandIsReported : Prop :=
  ∀ (i : Instr) (s : State),
    (∀ b, i.registerOperands.find? (fun x => decide (7 < x.toNat)) = some b → raisesIndexFault i b s) ∧
    (i.registerOperands.find? (fun x => decide (7 < x.toNat)) = none →
      ∃ t, exec i s = .next t ∧ (t.run = s.run ∨ t.run = .halted))

/-- 30_encoding.md R87: when the bytes from `pc` on, addresses mod 256, begin with the encoding of an instruction, the
step of a running engine is that instruction's effect and nothing else; the loop never advances `pc`. For every
injective opcode map, and for `step`, which uses the default one. -/
def Obligations.StepRunsDecodedInstruction : Prop :=
  (∀ o : OpcodeMap, Function.Injective o → ∀ (i : Instr) (s : State), s.run = .running →
    (∀ (k : Nat) (hk : k < (encodeWith o i).length), s.memRead (s.pc.toNat + k) = (encodeWith o i)[k]) →
    stepWith o s = exec i s) ∧
  (∀ (i : Instr) (s : State), s.run = .running →
    decode (s.memRead s.pc.toNat) (s.memRead (s.pc.toNat + 1)) (s.memRead (s.pc.toNat + 2)) = .instr i →
    step s = exec i s)

/-- 30_encoding.md R86 and 60_exceptions.md R171; that nothing but `run` changes is decision D6 (log 6). -/
def Obligations.UnsupportedOpcodeIsFatal : Prop :=
  ∀ (o : OpcodeMap) (s : State), s.run = .running → (∀ m, o m ≠ s.memRead s.pc.toNat) →
    stepWith o s =
      .next { s with run := .faulted .unsupportedInstruction (s.memRead s.pc.toNat) s.pc }

/-- 10_state.md R28 and 60_exceptions.md R176, resting on decisions D6 and D16 (log 6, log 9): a stopped engine has no
step, which the model shows as a stop of its own name, and only reset leads out. -/
def Obligations.StoppedEngineTakesNoStep : Prop :=
  (∀ (o : OpcodeMap) (s : State), s.run = .halted → stepWith o s = .fault .stepAfterHalt) ∧
  (∀ (o : OpcodeMap) (s : State) (c : Cause) (b : Byte) (p : Addr), s.run = .faulted c b p →
    stepWith o s = .fault .stepAfterFault) ∧
  (∀ s : State, (hostReset s).run = .running)

/-- 70_reset_and_hazards.md R195: "a `Running` engine always has a next step". -/
def Obligations.RunningEngineAlwaysSteps : Prop :=
  ∀ (o : OpcodeMap) (s : State), s.run = .running → ∃ t, stepWith o s = .next t

/-- 60_exceptions.md R175, resting on decisions D5 and D6 (log 5, log 6): a step that faults has changed nothing but
`run`, `pc` identifies the faulting instruction, and the record says what was wrong there. -/
def Obligations.FaultsArePrecise : Prop :=
  ∀ (o : OpcodeMap) (s t : State), stepWith o s = .next t → t.goneWrong = true →
    ∃ c b, t = { s with run := .faulted c b s.pc } ∧
      ((c = .unsupportedInstruction ∧ fetch o s = .unsupported b ∧ b = s.memRead s.pc.toNat) ∨
       (c = .invalidRegisterIndex ∧ 7 < b.toNat ∧ ∃ i, fetch o s = .instr i ∧ b ∈ i.registerOperands))

/-- 10_state.md R28, resting on decisions D5 and D6 (log 5, log 6) for the fault: a step enters `Halted` exactly by HLT
and `Faulted` exactly by an unsupported opcode or a register operand above 7; every other step stays `Running`. -/
def Obligations.RunStatusEdges : Prop :=
  ∀ (o : OpcodeMap) (s t : State), stepWith o s = .next t →
    s.run = .running ∧
    (t.run = .halted ↔ fetch o s = .instr .hlt) ∧
    (t.goneWrong = true ↔
      (∃ b, fetch o s = .unsupported b) ∨ ∃ i, fetch o s = .instr i ∧ ∃ b ∈ i.registerOperands, 7 < b.toNat) ∧
    (t.run = .running ∨ t.run = .halted ∨ t.goneWrong = true)

/-! ## Encoding -/

/-- 30_encoding.md R80 to R88: for every injective opcode map, decoding the encoding of any instruction, whatever bytes
follow it, gives the instruction back, with every operand at every value. -/
def Obligations.DecodeInvertsEncode : Prop :=
  ∀ o : OpcodeMap, Function.Injective o →
    ∀ (i : Instr) (following : List Byte) (opcode op1 op2 : Byte) (rest : List Byte),
      encodeWith o i ++ following = opcode :: op1 :: op2 :: rest → decodeWith o opcode op1 op2 = .instr i

/-- 30_encoding.md R80, R86: for every opcode map, what decodes is the encoding of its instruction, and what does not
decode begins with no opcode. -/
def Obligations.EncodeInvertsDecode : Prop :=
  ∀ (o : OpcodeMap) (opcode op1 op2 : Byte),
    (∀ i, decodeWith o opcode op1 op2 = .instr i →
      encodeWith o i = [opcode, op1, op2].take (lengthOf i.mnemonic)) ∧
    (∀ b, decodeWith o opcode op1 op2 = .unsupported b → b = opcode ∧ ∀ i, encodeWith o i ≠ [opcode, op1, op2].take
      (encodeWith o i).length)

/-- 30_encoding.md R81. -/
def Obligations.OpcodeByteAloneSelects : Prop :=
  (∀ o : OpcodeMap, Function.Injective o → ∀ (m : Mnemonic) (op1 op2 : Byte),
    ∃ i, decodeWith o (o m) op1 op2 = .instr i ∧ i.mnemonic = m) ∧
  (∀ (o : OpcodeMap) (opcode op1 op2 : Byte), (∀ m, o m ≠ opcode) →
    decodeWith o opcode op1 op2 = .unsupported opcode) ∧
  (∀ (o : OpcodeMap) (s t : State), (∀ k < 3, s.memRead (s.pc.toNat + k) = t.memRead (t.pc.toNat + k)) →
    fetch o s = fetch o t)

/-- 30_encoding.md R88. -/
def Obligations.LengthFollowsFromOpcode : Prop :=
  (∀ m, lengthOf m = match m with
    | .hlt => 1 | .ret => 1
    | .prn => 2 | .push => 2 | .pop => 2 | .call => 2 | .jmp => 2 | .jeq => 2 | .jne => 2
    | .ldi => 3 | .add => 3 | .mult => 3 | .cmp => 3) ∧
  (∀ (o : OpcodeMap) (i : Instr), (encodeWith o i).length = lengthOf i.mnemonic) ∧
  (∀ (o : OpcodeMap) (opcode op1 op2 x y : Byte) (i : Instr), decodeWith o opcode op1 op2 = .instr i →
    decodeWith o opcode (if 2 ≤ lengthOf i.mnemonic then op1 else x) (if 3 ≤ lengthOf i.mnemonic then op2 else y) =
      .instr i) ∧
  (∀ (o : OpcodeMap) (s t : State) (b : Byte), fetch o s = .unsupported b → stepWith o s = .next t → t.pc = s.pc) ∧
  (∀ (o : OpcodeMap) (s : State) (b : Byte) (a : Nat) (v : Byte), fetch o s = .unsupported b →
    a % 256 ≠ s.pc.toNat → fetch o (s.memWrite a v) = .unsupported b) ∧
  (∀ (i : Instr) (s t : State), i.wellFormed = true → exec i s = .next t →
    i.mnemonic ∉ [Mnemonic.call, .ret, .jmp, .jeq, .jne] → pcAdvances (lengthOf i.mnemonic) s t)

/-- 30_encoding.md R84: the operand bytes are the ones at `pc + 1` and `pc + 2`, a register operand is a whole operand
byte, every instruction uses the register whose index is the value of that byte, the immediate goes to the register as
it is, and a jump target comes from a register. When JEQ and JNE jump is 43_control_transfer.md R143 and R144 (at
unreachable values of `fl` decision D15, log 16), and the order in which CMP takes its operands is decision D9
(log 14). -/
def Obligations.OperandBytesFollowOpcode : Prop :=
  (∀ (o : OpcodeMap) (s : State) (i : Instr), fetch o s = .instr i →
    operandBytes i = [s.memRead ((s.pc.toNat + 1) % 256), s.memRead ((s.pc.toNat + 2) % 256)].take
      (lengthOf i.mnemonic - 1)) ∧
  (∀ i : Instr, i.registerOperands = (operandBytes i).take (if i.mnemonic = .ldi then 1 else 2)) ∧
  (∀ (r imm : Byte) (s : State) (h : r.toNat < 8), ∃ t, exec (.ldi r imm) s = .next t ∧ t.reg ⟨r.toNat, h⟩ = imm) ∧
  (∀ (r : Byte) (s : State) (h : r.toNat < 8),
    (∃ t, exec (.prn r) s = .next t ∧ t.out = s.out ++ [s.reg ⟨r.toNat, h⟩]) ∧
    (∃ t, exec (.push r) s = .next t ∧ t.memRead s.pushAddr.toNat = s.reg ⟨r.toNat, h⟩) ∧
    (∃ t, exec (.pop r) s = .next t ∧ t.reg ⟨r.toNat, h⟩ = s.memRead s.sp.toNat) ∧
    (∃ t, exec (.call r) s = .next t ∧ t.pc = s.reg ⟨r.toNat, h⟩) ∧
    (∃ t, exec (.jmp r) s = .next t ∧ t.pc = s.reg ⟨r.toNat, h⟩) ∧
    (∃ t, exec (.jeq r) s = .next t ∧
      if s.fl.getLsbD 0 then t.pc = s.reg ⟨r.toNat, h⟩ else pcAdvances 2 s t) ∧
    (∃ t, exec (.jne r) s = .next t ∧
      if s.fl.getLsbD 1 || s.fl.getLsbD 2 then t.pc = s.reg ⟨r.toNat, h⟩ else pcAdvances 2 s t)) ∧
  (∀ (a b : Byte) (s : State) (ha : a.toNat < 8) (hb : b.toNat < 8),
    (∃ t, exec (.add a b) s = .next t ∧
      t.reg ⟨a.toNat, ha⟩ = s.reg ⟨a.toNat, ha⟩ + s.reg ⟨b.toNat, hb⟩) ∧
    (∃ t, exec (.mult a b) s = .next t ∧
      t.reg ⟨a.toNat, ha⟩ = s.reg ⟨a.toNat, ha⟩ * s.reg ⟨b.toNat, hb⟩) ∧
    (∃ t, exec (.cmp a b) s = .next t ∧
      t.fl = compareFlags (s.reg ⟨a.toNat, ha⟩) (s.reg ⟨b.toNat, hb⟩)))

/-- The default opcode map of 30_encoding.md R82, which the spec itself takes from general knowledge (decision D1,
log 1): the 13 values, that they differ, that the other 243 bytes are unsupported, and one word of each format. -/
def Obligations.DefaultOpcodeValues : Prop :=
  allMnemonics.map opc =
    [0x82#8, 0x47#8, 0xA0#8, 0xA2#8, 0x45#8, 0x46#8, 0x50#8, 0x11#8, 0x54#8, 0x55#8, 0x56#8, 0xA7#8, 0x01#8] ∧
  (allMnemonics.map opc).Nodup ∧
  ((List.range 256).filter (fun n => (lookup opc (BitVec.ofNat 8 n)).isNone)).length = 243 ∧
  decode 0b10000010#8 0x00#8 0x08#8 = .instr (.ldi 0x00#8 0x08#8) ∧
  decode 0b10100010#8 0x00#8 0x01#8 = .instr (.mult 0x00#8 0x01#8) ∧
  decode 0b01010000#8 0x01#8 0x47#8 = .instr (.call 0x01#8) ∧
  decode 0b00000001#8 0xFF#8 0xFF#8 = .instr .hlt ∧
  decode 0b00000000#8 0x82#8 0x00#8 = .unsupported 0x00#8

/-! ## Invariants -/

/-- Every step keeps the invariant: memory in canonical form (the model's form, log 20), `fl` one of 0x00, 0x01, 0x02,
0x04 (10_state.md R26, with decisions D4 and D15, log 4 and log 16), and a fault record that is true of the state
(60_exceptions.md R175, decisions D5 and D6, log 5 and log 6). For every opcode map. -/
def Obligations.StepKeepsInvariant : Prop :=
  ∀ (o : OpcodeMap) (s t : State), s.inv o = true → stepWith o s = .next t → t.inv o = true

/-- The reset state meets the invariant (10_state.md R33; the zero of `fl` is decision D4, log 4). -/
def Obligations.ResetMeetsInvariant : Prop := ∀ o : OpcodeMap, State.reset.inv o = true

/-- Every launch state meets the invariant (70_reset_and_hazards.md R191; decisions D4 and D12: log 4, log 11). -/
def Obligations.LaunchMeetsInvariant : Prop :=
  ∀ (o : OpcodeMap) (image : List Byte) (s : State), launch image = .next s → s.inv o = true

/-- 10_state.md R26 (decisions D4 and D15, log 4 and log 16): `fl` is 0x00 from reset, a completed CMP makes it one of
0x01, 0x02, 0x04, and it is one of these three ever after. -/
def Obligations.FlagsStayOneHotAfterCompare : Prop :=
  State.reset.fl = 0x00#8 ∧
  (∀ (a b : Byte) (s t : State), (Instr.cmp a b).wellFormed = true → exec (.cmp a b) s = .next t →
    flCompared t.fl = true) ∧
  (∀ (o : OpcodeMap) (s t : State), flCompared s.fl = true → stepWith o s = .next t → flCompared t.fl = true)

/-- Memories in canonical form that read alike at every address are equal data (the model's form, log 20). -/
def Obligations.CanonicalMemoriesReadingAlikeAreEqual : Prop :=
  ∀ m m' : Memory, Memory.wf m = true → Memory.wf m' = true →
    (∀ a : Nat, Memory.read m a = Memory.read m' a) → m = m'

/-! ## Rules over all instructions -/

/-- 10_state.md R21: which registers each instruction writes, and which it reads. No register beyond those of the table
is written, and one beyond them changes nothing but its own value; each that the table lists is written, and is read,
but that CMP r, r gives EQUAL whatever `x[r]` holds. All eight registers are written and read alike. With an operand byte
above 7 an instruction writes and reads no register, not even one that its other operand names: decisions D5 and D6
(log 5, log 6). -/
def Obligations.RegisterFileReadsAndWrites : Prop :=
  (∀ (s : State) (k j : RegIdx) (v : Byte), (s.setReg k v).reg j = if j = k then v else s.reg j) ∧
  (∀ (i : Instr) (s t : State), exec i s = .next t →
    ∀ k : RegIdx, (destination i).map BitVec.toNat ≠ some k.val → t.reg k = s.reg k) ∧
  (∀ (i : Instr) (s t : State), exec i s = .next t →
    ∀ (k : RegIdx) (v : Byte), (∀ b ∈ sources s.fl i, b.toNat ≠ k.val) →
      exec i (s.setReg k v) = .next (if (destination i).map BitVec.toNat = some k.val then t else t.setReg k v)) ∧
  (∀ (i : Instr) (s t : State), i.wellFormed = false → exec i s = .next t →
    keepsRegs s t ∧ ∀ (k : RegIdx) (v : Byte), exec i (s.setReg k v) = .next (t.setReg k v)) ∧
  (∀ (i : Instr) (b : Byte) (h : b.toNat < 8), i.wellFormed = true → destination i = some b →
    ∃ s t, exec i s = .next t ∧ t.reg ⟨b.toNat, h⟩ ≠ s.reg ⟨b.toNat, h⟩) ∧
  (∀ (f : Byte) (i : Instr) (b : Byte) (h : b.toNat < 8), i.wellFormed = true → b ∈ sources f i → i ≠ .cmp b b →
    ∃ s t v, s.fl = f ∧ exec i s = .next t ∧
      exec i (s.setReg ⟨b.toNat, h⟩ v) ≠
        .next (if destination i = some b then t else t.setReg ⟨b.toNat, h⟩ v))

/-- 10_state.md R24: `sp` resets to 0xF4 so that the first push writes `mem[0xF3]`; only PUSH, CALL, POP and RET move
it, mod 256, never with an error; it is the address of the byte pushed last; and no instruction copies it to a
register. That an operand byte above 7 faults, so that PUSH 0x08 moves nothing, is decision D5 (log 5), and that a fault
leaves `sp` as it was is decision D6 (log 6). -/
def Obligations.StackPointerMoves : Prop :=
  State.reset.sp = 0xF4#8 ∧ State.reset.pushAddr = 0xF3#8 ∧
  (∀ (i : Instr) (s : State), i.wellFormed = true →
    ∃ t, exec i s = .next t ∧ t.sp.toNat = spAfter s.sp.toNat i ∧ (t.run = s.run ∨ i = .hlt)) ∧
  (∀ (i : Instr) (s t : State), i.wellFormed = false → exec i s = .next t → t.sp = s.sp) ∧
  (∀ (o : OpcodeMap) (s t : State) (b : Byte), fetch o s = .unsupported b → stepWith o s = .next t → t.sp = s.sp) ∧
  (∀ (r : Byte) (s t : State) (h : r.toNat < 8), exec (.push r) s = .next t →
    t.memRead t.sp.toNat = s.reg ⟨r.toNat, h⟩) ∧
  (∀ (r : Byte) (s t : State), r.toNat < 8 → exec (.call r) s = .next t →
    (t.memRead t.sp.toNat).toNat = (s.pc.toNat + 2) % 256) ∧
  (∀ (i : Instr) (s t : State) (p : Addr), exec i s = .next t → s.memRead p.toNat = s.memRead s.sp.toNat →
    ∃ t', exec i { s with sp := p } = .next t' ∧ keepsRegs t t')

/-- 10_state.md R25 (that CMP writes bits 7 to 3 as 0 is decision D15, log 16): only CMP writes `fl`, no instruction
but JEQ and JNE reads it, and these two read it for `pc` only. -/
def Obligations.OnlyCompareTouchesFlags : Prop :=
  (∀ (i : Instr) (s t : State), i.mnemonic ≠ .cmp → exec i s = .next t → t.fl = s.fl) ∧
  (∀ (i : Instr) (s t : State) (f : Byte), exec i s = .next t →
    ∃ t', exec i (s.setFl f) = .next t' ∧
      t' = { t with fl := t'.fl, pc := t'.pc } ∧
      (i.mnemonic ≠ .jeq → i.mnemonic ≠ .jne → t'.pc = t.pc) ∧
      (i.mnemonic = .cmp → i.wellFormed = true → t'.fl = t.fl))

/-- 10_state.md R27 and 20_memory.md R57 (the clause on a faulting step rests on decisions D5 and D6, log 5 and
log 6): a step changes at most the one cell `pushAddr`, and only when it runs a PUSH or a CALL with a register operand
in range. -/
def Obligations.OnlyPushAndCallStore : Prop :=
  ∀ (o : OpcodeMap) (s t : State), stepWith o s = .next t →
    keepsMemoryBut s.pushAddr s t ∧
    ((∀ i, fetch o s = .instr i → (stores i && i.wellFormed) = false) → keepsMemory s t)

/-- 20_memory.md R57 and R61 (fetch before data is decision D7, log 7; no data access by a faulting step rests on
decisions D5 and D6, log 5 and log 6): the listed accesses are one to three instruction reads and then at most one data
access; no cell but a listed write changes; and a cell that is not listed as read has no influence on the step. -/
def Obligations.ListedAccessesAreComplete : Prop :=
  ∀ (o : OpcodeMap) (s t : State), stepWith o s = .next t →
    (∃ n data, 1 ≤ n ∧ n ≤ 3 ∧ accesses o s = fetchReads n s ++ data ∧ data.length ≤ 1 ∧
      ∀ x ∈ data, x = .stackRead s.sp ∨ x = .stackWrite s.pushAddr) ∧
    (∀ a : Addr, .stackWrite a ∉ accesses o s → t.memRead a.toNat = s.memRead a.toNat) ∧
    (∀ (a : Addr) (v : Byte), .fetchRead a ∉ accesses o s → .stackRead a ∉ accesses o s →
      ∃ t', stepWith o (s.memWrite a.toNat v) = .next t' ∧ t' = { t with mem := t'.mem } ∧ keepsMemoryBut a t t')

/-- 10_state.md R29 (the clause on a faulting step rests on decisions D5 and D6, log 5 and log 6): a step appends the
register's byte when it runs a PRN with its operand in range, and otherwise leaves the output as it was; nothing reads
the output back into the core. -/
def Obligations.OutputIsAppendOnlyAndUnread : Prop :=
  (∀ (o : OpcodeMap) (s t : State), stepWith o s = .next t →
    (∀ (r : Byte) (h : r.toNat < 8), fetch o s = .instr (.prn r) → t.out = s.out ++ [s.reg ⟨r.toNat, h⟩] ∧
      outEvents s t = [s.reg ⟨r.toNat, h⟩]) ∧
    ((∀ r : Byte, r.toNat < 8 → fetch o s ≠ .instr (.prn r)) → t.out = s.out)) ∧
  (∀ (o : OpcodeMap) (s t : State) (earlier : List Byte), stepWith o s = .next t →
    stepWith o { s with out := earlier ++ s.out } = .next { t with out := earlier ++ t.out })

/-- 10_state.md R23 (that `pc` is stored in 8 bits is decision D8, log 8; the clause on operands above 7 rests on
decisions D5 and D6, log 5 and log 6): the new `pc` of every instruction. -/
def Obligations.ProgramCounterTable : Prop :=
  (∀ (i : Instr) (s t : State), i.wellFormed = true → exec i s = .next t →
    match i with
    | .ldi _ _ => pcAdvances 3 s t
    | .add _ _ => pcAdvances 3 s t
    | .mult _ _ => pcAdvances 3 s t
    | .cmp _ _ => pcAdvances 3 s t
    | .prn _ => pcAdvances 2 s t
    | .push _ => pcAdvances 2 s t
    | .pop _ => pcAdvances 2 s t
    | .hlt => pcAdvances 1 s t
    | .jmp r => ∀ h : r.toNat < 8, t.pc = s.reg ⟨r.toNat, h⟩
    | .call r => ∀ h : r.toNat < 8, t.pc = s.reg ⟨r.toNat, h⟩
    | .jeq r => if s.fl.getLsbD 0 then ∀ h : r.toNat < 8, t.pc = s.reg ⟨r.toNat, h⟩ else pcAdvances 2 s t
    | .jne r =>
      if s.fl.getLsbD 1 || s.fl.getLsbD 2 then ∀ h : r.toNat < 8, t.pc = s.reg ⟨r.toNat, h⟩ else pcAdvances 2 s t
    | .ret => t.pc = s.memRead s.sp.toNat) ∧
  (∀ (o : OpcodeMap) (s t : State), stepWith o s = .next t → t.goneWrong = true → t.pc = s.pc)

/-- 10_state.md R22, the spec's own decision D2 (log 2): `x[7]` and `sp` share their reset value and nothing else. An
instruction that writes `x[7]` leaves `sp` where it would be with any other destination, and PUSH, CALL and RET never
change `x[7]`. -/
def Obligations.RegisterSevenIsNotTheStackPointer : Prop :=
  State.reset.reg 7 = State.reset.sp ∧
  (∀ (i : Instr) (s t : State), exec i s = .next t → (destination i).isSome = true → i.mnemonic ≠ .pop →
    t.sp = s.sp) ∧
  (∀ (r r' : Byte) (s t t' : State), r.toNat < 8 → r'.toNat < 8 → exec (.pop r) s = .next t →
    exec (.pop r') s = .next t' → t.sp = t'.sp) ∧
  (∀ (i : Instr) (s t : State), exec i s = .next t → i.mnemonic ∈ [Mnemonic.push, .call, .ret] → t.reg 7 = s.reg 7)

/-- 43_control_transfer.md R145 ("GREATER and LESS can be told apart by no instruction"), which makes decision D9
(log 14) unobservable: states that differ at most in GREATER against LESS take steps to states that differ at most in
that, under every opcode map. -/
def Obligations.GreaterAndLessAreIndistinguishable : Prop :=
  ∀ (o : OpcodeMap) (s s' t : State), sameUpToOrder s s' → stepWith o s = .next t →
    ∃ t', stepWith o s' = .next t' ∧ sameUpToOrder t t'

/-! ## Memory, reset and launch -/

/-- 20_memory.md R51: the address is taken mod 256, a write changes the addressed cell and no other, for every memory
and every address; neither primitive changes any other state. -/
def Obligations.MemoryPrimitives : Prop :=
  (∀ (m : Memory) (a : Nat), Memory.read m a = Memory.read m (a % 256)) ∧
  (∀ (m : Memory) (a b : Nat) (v : Byte),
    Memory.read (Memory.write m a v) b = if b % 256 = a % 256 then v else Memory.read m b) ∧
  (∀ (s : State) (a b : Nat) (v : Byte),
    (s.memWrite a v).memRead b = (if b % 256 = a % 256 then v else s.memRead b) ∧
    s.memWrite a v = { s with mem := (s.memWrite a v).mem })

/-- 10_state.md R33 (the zeros of `x[0]` to `x[6]` and of `fl` are decisions D3 and D4, log 3 and log 4) and
70_reset_and_hazards.md R190 (decision D18, log 13): every piece of state after reset, from whatever state. -/
def Obligations.ResetValues : Prop :=
  ∀ s : State, hostReset s = State.reset ∧
    (∀ k : RegIdx, (hostReset s).reg k = if k = 7 then 0xF4#8 else 0x00#8) ∧
    (hostReset s).pc = 0x00#8 ∧ (hostReset s).sp = 0xF4#8 ∧ (hostReset s).fl = 0x00#8 ∧
    (∀ a : Nat, (hostReset s).memRead a = 0x00#8) ∧ (hostReset s).run = .running ∧ (hostReset s).out = []

/-- 70_reset_and_hazards.md R191 (the limit of 256 bytes is decision D12, log 11): the launch state has byte `i` of the
image in cell `i`, zero in every cell past it, and every other piece of state at its reset value; a longer image is
refused. -/
def Obligations.LaunchPlacesImage : Prop :=
  (∀ image : List Byte, image.length ≤ 256 → ∃ s, launch image = .next s ∧
    (∀ (i : Nat) (h : i < image.length), s.memRead i = image[i]) ∧
    (∀ a : Nat, image.length ≤ a → a < 256 → s.memRead a = 0x00#8) ∧
    s = { State.reset with mem := s.mem }) ∧
  (∀ image : List Byte, 256 < image.length → launch image = .refused .imageTooLong)

/-- 70_reset_and_hazards.md R197 (under the default opcode map, decision D1, log 1; that the state is otherwise
unchanged is decision D6, log 6): once `pc` reaches a cell past the image that still holds 0x00, the step faults with
UnsupportedInstruction. -/
def Obligations.RunningOffTheImageFaults : Prop :=
  ∀ (image : List Byte) (s : State), launch image = .next s →
    ∀ u : State, u.run = .running → image.length ≤ u.pc.toNat →
      u.memRead u.pc.toNat = s.memRead u.pc.toNat →
        step u = .next { u with run := .faulted .unsupportedInstruction 0x00#8 u.pc }

/-- 20_memory.md R60: the byte PUSH or CALL stores, the register of PUSH or the return address `(pc + 2) mod 256` of
CALL, is what a fetch reads in the cell `(sp - 1) mod 256` from the next step on, at every `pc` and offset, and a fetch
reads every other cell as before. A PUSH or CALL whose store lands on its own opcode or operand byte runs as it was
fetched (70_reset_and_hazards.md R198, decision D7, log 7), and the byte it stored is what is fetched there next. -/
def Obligations.StoredBytesAreFetched : Prop :=
  (∀ (r : Byte) (s : State) (h : r.toNat < 8), ∃ t, exec (.push r) s = .next t ∧
    ∀ (p : Addr) (k : Nat), State.instrByte { t with pc := p } k =
      if (p.toNat + k) % 256 = (s.sp.toNat + 255) % 256 then s.reg ⟨r.toNat, h⟩
      else State.instrByte { s with pc := p } k) ∧
  (∀ (r : Byte) (s : State), r.toNat < 8 → ∃ t, exec (.call r) s = .next t ∧
    ∀ (p : Addr) (k : Nat), State.instrByte { t with pc := p } k =
      if (p.toNat + k) % 256 = (s.sp.toNat + 255) % 256 then BitVec.ofNat 8 ((s.pc.toNat + 2) % 256)
      else State.instrByte { s with pc := p } k) ∧
  (∀ (o : OpcodeMap) (r : Byte) (s : State) (h : r.toNat < 8), s.run = .running → fetch o s = .instr (.push r) →
    ∀ k < 2, (s.sp.toNat + 255) % 256 = (s.pc.toNat + k) % 256 →
      ∃ t, stepWith o s = .next t ∧ State.instrByte { t with pc := s.pc } k = s.reg ⟨r.toNat, h⟩ ∧
        t.sp = s.pushAddr ∧ keepsRegs s t ∧ pcAdvances 2 s t) ∧
  (∀ (o : OpcodeMap) (r : Byte) (s : State) (h : r.toNat < 8), s.run = .running → fetch o s = .instr (.call r) →
    ∀ k < 2, (s.sp.toNat + 255) % 256 = (s.pc.toNat + k) % 256 →
      ∃ t, stepWith o s = .next t ∧
        (State.instrByte { t with pc := s.pc } k).toNat = (s.pc.toNat + 2) % 256 ∧
        t.sp = s.pushAddr ∧ keepsRegs s t ∧ t.pc = s.reg ⟨r.toNat, h⟩)

/-! ## Laws of the source document -/

/-- 40_data_movement.md R112, as two steps of a running engine under every injective opcode map, with the text of
decision D10 (log 15). -/
def Obligations.LdiThenPrnPrintsImmediate : Prop :=
  ∀ o : OpcodeMap, Function.Injective o → ∀ (r v : Byte) (s : State), r.toNat < 8 → s.run = .running →
    (∀ (k : Nat) (hk : k < 5), s.memRead (s.pc.toNat + k) = [o .ldi, r, v, o .prn, r][k]) →
    ∃ t u, stepWith o s = .next t ∧ stepWith o t = .next u ∧ u.out = s.out ++ [v] ∧
      u.outText = s.outText ++ decimalLine v

/-- 42_stack.md R132, as two steps of a running engine under every injective opcode map, with the rule's side condition
that the PUSH does not overwrite the POP; and the last-in first-out order. -/
def Obligations.PushThenPopRoundTrip : Prop :=
  (∀ o : OpcodeMap, Function.Injective o → ∀ (r r2 : Byte) (s : State) (h : r.toNat < 8) (h2 : r2.toNat < 8),
    s.run = .running →
    (∀ (k : Nat) (hk : k < 4), s.memRead (s.pc.toNat + k) = [o .push, r, o .pop, r2][k]) →
    s.pushAddr.toNat ≠ (s.pc.toNat + 2) % 256 → s.pushAddr.toNat ≠ (s.pc.toNat + 3) % 256 →
    ∃ t u, stepWith o s = .next t ∧ stepWith o t = .next u ∧
      t.sp.toNat = (s.sp.toNat + 255) % 256 ∧ t.memRead t.sp.toNat = s.reg ⟨r.toNat, h⟩ ∧
      u.reg ⟨r2.toNat, h2⟩ = s.reg ⟨r.toNat, h⟩ ∧ u.sp = s.sp ∧ keepsRegsBut ⟨r2.toNat, h2⟩ s u ∧
      keepsMemoryBut s.pushAddr s u) ∧
  (∀ (r1 r2 r3 r4 : Byte) (s : State) (h1 : r1.toNat < 8) (h2 : r2.toNat < 8) (h3 : r3.toNat < 8) (h4 : r4.toNat < 8),
    ∃ t1 t2 t3 t4, exec (.push r1) s = .next t1 ∧ exec (.push r2) t1 = .next t2 ∧ exec (.pop r3) t2 = .next t3 ∧
      exec (.pop r4) t3 = .next t4 ∧ t3.reg ⟨r3.toNat, h3⟩ = s.reg ⟨r2.toNat, h2⟩ ∧
      t4.reg ⟨r4.toNat, h4⟩ = s.reg ⟨r1.toNat, h1⟩ ∧ t4.sp = s.sp)

/-- The call and return law quoted in 43_control_transfer.md R145: after a CALL, a RET reached with `sp` as the CALL left
it and with the saved cell not overwritten resumes at the byte after the CALL's operand, with `sp` as it was before the
CALL. -/
def Obligations.CallThenRetResumes : Prop :=
  ∀ (r : Byte) (s : State), r.toNat < 8 → ∃ t, exec (.call r) s = .next t ∧
    ∀ u : State, u.sp = t.sp → u.memRead u.sp.toNat = t.memRead t.sp.toNat →
      ∃ w, exec .ret u = .next w ∧ w.pc.toNat = (s.pc.toNat + 2) % 256 ∧ w.sp = s.sp

/-- The integer laws of 41_arithmetic.md: sums and products of natural numbers mod 256, the same bits when the operands
are read as two's complement, and nothing recorded of an overflow. -/
def Obligations.ArithmeticIsModulo256 : Prop :=
  ∀ (a b : Byte) (s : State) (ha : a.toNat < 8) (hb : b.toNat < 8),
    (∃ t, exec (.add a b) s = .next t ∧
      (t.reg ⟨a.toNat, ha⟩).toNat = ((s.reg ⟨a.toNat, ha⟩).toNat + (s.reg ⟨b.toNat, hb⟩).toNat) % 256 ∧
      t.reg ⟨a.toNat, ha⟩ = BitVec.ofInt 8 ((s.reg ⟨a.toNat, ha⟩).toInt + (s.reg ⟨b.toNat, hb⟩).toInt) ∧
      t = { s with regs := t.regs, pc := t.pc }) ∧
    (∃ t, exec (.mult a b) s = .next t ∧
      (t.reg ⟨a.toNat, ha⟩).toNat = ((s.reg ⟨a.toNat, ha⟩).toNat * (s.reg ⟨b.toNat, hb⟩).toNat) % 256 ∧
      t.reg ⟨a.toNat, ha⟩ = BitVec.ofInt 8 ((s.reg ⟨a.toNat, ha⟩).toInt * (s.reg ⟨b.toNat, hb⟩).toInt) ∧
      t = { s with regs := t.regs, pc := t.pc })

/-- 10_state.md R29, with the text of decision D10 (log 15): the line shown for a byte is its decimal numeral, digits 0
to 9, most significant first, no leading zero but for zero itself, and one line feed. -/
def Obligations.DecimalLineIsShortestNumeral : Prop :=
  ∀ v : Byte, ∃ digits : List Nat, digits ≠ [] ∧ (∀ d ∈ digits, d < 10) ∧
    digits.foldl (fun n d => 10 * n + d) 0 = v.toNat ∧ (digits.head? = some 0 → digits = [0]) ∧
    decimalLine v = digits.map (fun d => Char.ofNat (48 + d)) ++ [Char.ofNat 10]

/-- The status ports of 00_scope.md R8 (decision D11; the pair for `fault_info` is the model's choice, log 12) and the
cause codes of 60_exceptions.md R170 (decision D6, log 6). -/
def Obligations.StatusPortsShowRun : Prop :=
  ∀ s : State,
    (s.haltedPort = true ↔ s.run = .halted) ∧
    (s.faultPorts = none ↔ s.goneWrong = false) ∧
    (∀ b p, s.faultPorts = some (0#1, b, p) ↔ s.run = .faulted .unsupportedInstruction b p) ∧
    (∀ b p, s.faultPorts = some (1#1, b, p) ↔ s.run = .faulted .invalidRegisterIndex b p)
end

