-- ==== Sys2Proof/Laws/Decode.lean ====
section
/-! SUPPORT. The opcode match and the parts of an instruction. -/

namespace Sys2Proof

/-- Every mnemonic is in the list. -/
theorem mem_allMnemonics (m : Mnemonic) : m ∈ allMnemonics := by cases m <;> decide

/-- A byte that selects a mnemonic is its opcode value. -/
theorem lookup_some {o : OpcodeMap} {b : Byte} {m : Mnemonic} (h : lookup o b = some m) : o m = b := by
  simpa using List.find?_some h

/-- A byte selects nothing exactly when it is no opcode value (30_encoding.md R86). -/
theorem lookup_none {o : OpcodeMap} {b : Byte} : lookup o b = none ↔ ∀ m, o m ≠ b := by
  simp only [lookup, List.find?_eq_none, decide_eq_true_eq]
  exact ⟨fun h m => h m (mem_allMnemonics m), fun h m _ => h m⟩

/-- Under an injective map an opcode value selects its own mnemonic (30_encoding.md R81). -/
theorem lookup_opcode {o : OpcodeMap} (ho : Function.Injective o) (m : Mnemonic) : lookup o (o m) = some m := by
  cases h : lookup o (o m) with
  | none => exact absurd rfl (lookup_none.mp h m)
  | some m' => rw [ho (lookup_some h)]

@[simp] theorem mnemonic_assemble (m : Mnemonic) (x y : Byte) : (assemble m x y).mnemonic = m := by cases m <;> rfl

@[simp] theorem operandBytes_assemble (m : Mnemonic) (x y : Byte) :
    operandBytes (assemble m x y) = [x, y].take (lengthOf m - 1) := by cases m <;> rfl

end Sys2Proof
end

