-- ==== Sys2Proof/Laws/State.lean ====
section
/-! SUPPORT. One lemma per field of State per update, and per read per update, so that no later proof unfolds a
record update. -/

namespace Sys2Proof.Machine

variable (s : State)

@[simp] theorem State.setReg_regs (i : RegIdx) (v : Byte) : (s.setReg i v).regs = s.regs.set i v := rfl
@[simp] theorem State.setReg_pc (i : RegIdx) (v : Byte) : (s.setReg i v).pc = s.pc := rfl
@[simp] theorem State.setReg_sp (i : RegIdx) (v : Byte) : (s.setReg i v).sp = s.sp := rfl
@[simp] theorem State.setReg_fl (i : RegIdx) (v : Byte) : (s.setReg i v).fl = s.fl := rfl
@[simp] theorem State.setReg_mem (i : RegIdx) (v : Byte) : (s.setReg i v).mem = s.mem := rfl
@[simp] theorem State.setReg_run (i : RegIdx) (v : Byte) : (s.setReg i v).run = s.run := rfl
@[simp] theorem State.setReg_out (i : RegIdx) (v : Byte) : (s.setReg i v).out = s.out := rfl
@[simp] theorem State.setReg_pushAddr (i : RegIdx) (v : Byte) : (s.setReg i v).pushAddr = s.pushAddr := rfl
@[simp] theorem State.setReg_stackTop (i : RegIdx) (v : Byte) : (s.setReg i v).stackTop = s.stackTop := rfl
@[simp] theorem State.setReg_memRead (i : RegIdx) (v : Byte) (b : Nat) : (s.setReg i v).memRead b = s.memRead b := rfl

@[simp] theorem State.setPc_regs (a : Addr) : (s.setPc a).regs = s.regs := rfl
@[simp] theorem State.setPc_pc (a : Addr) : (s.setPc a).pc = a := rfl
@[simp] theorem State.setPc_sp (a : Addr) : (s.setPc a).sp = s.sp := rfl
@[simp] theorem State.setPc_fl (a : Addr) : (s.setPc a).fl = s.fl := rfl
@[simp] theorem State.setPc_mem (a : Addr) : (s.setPc a).mem = s.mem := rfl
@[simp] theorem State.setPc_run (a : Addr) : (s.setPc a).run = s.run := rfl
@[simp] theorem State.setPc_out (a : Addr) : (s.setPc a).out = s.out := rfl
@[simp] theorem State.setPc_pushAddr (a : Addr) : (s.setPc a).pushAddr = s.pushAddr := rfl
@[simp] theorem State.setPc_stackTop (a : Addr) : (s.setPc a).stackTop = s.stackTop := rfl
@[simp] theorem State.setPc_reg (a : Addr) (k : RegIdx) : (s.setPc a).reg k = s.reg k := rfl
@[simp] theorem State.setPc_memRead (a : Addr) (b : Nat) : (s.setPc a).memRead b = s.memRead b := rfl

@[simp] theorem State.advance_regs (n : Nat) : (s.advance n).regs = s.regs := rfl
@[simp] theorem State.advance_pc (n : Nat) : (s.advance n).pc = s.pc + BitVec.ofNat 8 n := rfl
@[simp] theorem State.advance_sp (n : Nat) : (s.advance n).sp = s.sp := rfl
@[simp] theorem State.advance_fl (n : Nat) : (s.advance n).fl = s.fl := rfl
@[simp] theorem State.advance_mem (n : Nat) : (s.advance n).mem = s.mem := rfl
@[simp] theorem State.advance_run (n : Nat) : (s.advance n).run = s.run := rfl
@[simp] theorem State.advance_out (n : Nat) : (s.advance n).out = s.out := rfl
@[simp] theorem State.advance_pushAddr (n : Nat) : (s.advance n).pushAddr = s.pushAddr := rfl
@[simp] theorem State.advance_stackTop (n : Nat) : (s.advance n).stackTop = s.stackTop := rfl
@[simp] theorem State.advance_reg (n : Nat) (k : RegIdx) : (s.advance n).reg k = s.reg k := rfl
@[simp] theorem State.advance_memRead (n : Nat) (b : Nat) : (s.advance n).memRead b = s.memRead b := rfl

@[simp] theorem State.setFl_regs (v : Byte) : (s.setFl v).regs = s.regs := rfl
@[simp] theorem State.setFl_pc (v : Byte) : (s.setFl v).pc = s.pc := rfl
@[simp] theorem State.setFl_sp (v : Byte) : (s.setFl v).sp = s.sp := rfl
@[simp] theorem State.setFl_fl (v : Byte) : (s.setFl v).fl = v := rfl
@[simp] theorem State.setFl_mem (v : Byte) : (s.setFl v).mem = s.mem := rfl
@[simp] theorem State.setFl_run (v : Byte) : (s.setFl v).run = s.run := rfl
@[simp] theorem State.setFl_out (v : Byte) : (s.setFl v).out = s.out := rfl
@[simp] theorem State.setFl_pushAddr (v : Byte) : (s.setFl v).pushAddr = s.pushAddr := rfl
@[simp] theorem State.setFl_stackTop (v : Byte) : (s.setFl v).stackTop = s.stackTop := rfl
@[simp] theorem State.setFl_reg (v : Byte) (k : RegIdx) : (s.setFl v).reg k = s.reg k := rfl
@[simp] theorem State.setFl_memRead (v : Byte) (b : Nat) : (s.setFl v).memRead b = s.memRead b := rfl

@[simp] theorem State.setRun_regs (r : RunStatus) : (s.setRun r).regs = s.regs := rfl
@[simp] theorem State.setRun_pc (r : RunStatus) : (s.setRun r).pc = s.pc := rfl
@[simp] theorem State.setRun_sp (r : RunStatus) : (s.setRun r).sp = s.sp := rfl
@[simp] theorem State.setRun_fl (r : RunStatus) : (s.setRun r).fl = s.fl := rfl
@[simp] theorem State.setRun_mem (r : RunStatus) : (s.setRun r).mem = s.mem := rfl
@[simp] theorem State.setRun_run (r : RunStatus) : (s.setRun r).run = r := rfl
@[simp] theorem State.setRun_out (r : RunStatus) : (s.setRun r).out = s.out := rfl
@[simp] theorem State.setRun_pushAddr (r : RunStatus) : (s.setRun r).pushAddr = s.pushAddr := rfl
@[simp] theorem State.setRun_stackTop (r : RunStatus) : (s.setRun r).stackTop = s.stackTop := rfl
@[simp] theorem State.setRun_reg (r : RunStatus) (k : RegIdx) : (s.setRun r).reg k = s.reg k := rfl
@[simp] theorem State.setRun_memRead (r : RunStatus) (b : Nat) : (s.setRun r).memRead b = s.memRead b := rfl

@[simp] theorem State.memWrite_regs (a : Nat) (v : Byte) : (s.memWrite a v).regs = s.regs := rfl
@[simp] theorem State.memWrite_pc (a : Nat) (v : Byte) : (s.memWrite a v).pc = s.pc := rfl
@[simp] theorem State.memWrite_sp (a : Nat) (v : Byte) : (s.memWrite a v).sp = s.sp := rfl
@[simp] theorem State.memWrite_fl (a : Nat) (v : Byte) : (s.memWrite a v).fl = s.fl := rfl
@[simp] theorem State.memWrite_mem (a : Nat) (v : Byte) : (s.memWrite a v).mem = Memory.write s.mem a v := rfl
@[simp] theorem State.memWrite_run (a : Nat) (v : Byte) : (s.memWrite a v).run = s.run := rfl
@[simp] theorem State.memWrite_out (a : Nat) (v : Byte) : (s.memWrite a v).out = s.out := rfl
@[simp] theorem State.memWrite_pushAddr (a : Nat) (v : Byte) : (s.memWrite a v).pushAddr = s.pushAddr := rfl
@[simp] theorem State.memWrite_reg (a : Nat) (v : Byte) (k : RegIdx) : (s.memWrite a v).reg k = s.reg k := rfl

@[simp] theorem State.push_regs (v : Byte) : (s.push v).regs = s.regs := rfl
@[simp] theorem State.push_pc (v : Byte) : (s.push v).pc = s.pc := rfl
@[simp] theorem State.push_sp (v : Byte) : (s.push v).sp = s.pushAddr := rfl
@[simp] theorem State.push_fl (v : Byte) : (s.push v).fl = s.fl := rfl
@[simp] theorem State.push_mem (v : Byte) : (s.push v).mem = Memory.write s.mem s.pushAddr.toNat v := rfl
@[simp] theorem State.push_run (v : Byte) : (s.push v).run = s.run := rfl
@[simp] theorem State.push_out (v : Byte) : (s.push v).out = s.out := rfl
@[simp] theorem State.push_reg (v : Byte) (k : RegIdx) : (s.push v).reg k = s.reg k := rfl

@[simp] theorem State.dropTop_regs : (s.dropTop).regs = s.regs := rfl
@[simp] theorem State.dropTop_pc : (s.dropTop).pc = s.pc := rfl
@[simp] theorem State.dropTop_sp : (s.dropTop).sp = s.sp + 1#8 := rfl
@[simp] theorem State.dropTop_fl : (s.dropTop).fl = s.fl := rfl
@[simp] theorem State.dropTop_mem : (s.dropTop).mem = s.mem := rfl
@[simp] theorem State.dropTop_run : (s.dropTop).run = s.run := rfl
@[simp] theorem State.dropTop_out : (s.dropTop).out = s.out := rfl
@[simp] theorem State.dropTop_reg (k : RegIdx) : (s.dropTop).reg k = s.reg k := rfl
@[simp] theorem State.dropTop_memRead (b : Nat) : (s.dropTop).memRead b = s.memRead b := rfl

@[simp] theorem State.emit_regs (v : Byte) : (s.emit v).regs = s.regs := rfl
@[simp] theorem State.emit_pc (v : Byte) : (s.emit v).pc = s.pc := rfl
@[simp] theorem State.emit_sp (v : Byte) : (s.emit v).sp = s.sp := rfl
@[simp] theorem State.emit_fl (v : Byte) : (s.emit v).fl = s.fl := rfl
@[simp] theorem State.emit_mem (v : Byte) : (s.emit v).mem = s.mem := rfl
@[simp] theorem State.emit_run (v : Byte) : (s.emit v).run = s.run := rfl
@[simp] theorem State.emit_out (v : Byte) : (s.emit v).out = s.out ++ [v] := rfl
@[simp] theorem State.emit_pushAddr (v : Byte) : (s.emit v).pushAddr = s.pushAddr := rfl
@[simp] theorem State.emit_stackTop (v : Byte) : (s.emit v).stackTop = s.stackTop := rfl
@[simp] theorem State.emit_reg (v : Byte) (k : RegIdx) : (s.emit v).reg k = s.reg k := rfl
@[simp] theorem State.emit_memRead (v : Byte) (b : Nat) : (s.emit v).memRead b = s.memRead b := rfl

/-- Reading back the register just written (10_state.md R21). -/
@[simp] theorem State.reg_setReg_same (i : RegIdx) (v : Byte) : (s.setReg i v).reg i = v := by
  simp [State.reg, State.setReg]

/-- Writing one register leaves every other one alone (10_state.md R21). -/
theorem State.reg_setReg_ne {i k : RegIdx} (h : k ≠ i) (v : Byte) : (s.setReg i v).reg k = s.reg k := by
  have h' : i.val ≠ k.val := fun e => h (Fin.ext e.symm)
  simp [State.reg, State.setReg, Vector.getElem_set_ne, h']

/-- Both reads of a written register file at once. -/
theorem State.reg_setReg (i k : RegIdx) (v : Byte) : (s.setReg i v).reg k = if k = i then v else s.reg k := by
  split
  · next h => subst h; exact s.reg_setReg_same _ v
  · next h => exact s.reg_setReg_ne h v

/-- Two register files that read alike are equal. -/
theorem State.regs_ext {s t : State} (h : ∀ k, s.reg k = t.reg k) : s.regs = t.regs := by
  ext k hk : 1
  exact h ⟨k, hk⟩

end Sys2Proof.Machine
end

