-- ==== Sys2Proof/Laws/Memory.lean ====
section
/-! SUPPORT. Memory: a read after a write, and that every memory operation keeps the canonical form. -/

namespace Sys2Proof.Machine

theorem Memory.lookupCell_eraseCell_same (m : Memory) (k : Nat) :
    Memory.lookupCell (Memory.eraseCell m k) k = Config.memReset := by
  induction m with
  | nil => rfl
  | cons c rest ih =>
    obtain ⟨a, v⟩ := c
    by_cases h : a = k <;> simp [Memory.eraseCell, Memory.lookupCell, h, ih]

theorem Memory.lookupCell_eraseCell_ne (m : Memory) {k j : Nat} (h : j ≠ k) :
    Memory.lookupCell (Memory.eraseCell m k) j = Memory.lookupCell m j := by
  induction m with
  | nil => rfl
  | cons c rest ih =>
    obtain ⟨a, v⟩ := c
    by_cases ha : a = k
    · have hj : ¬ k = j := fun e => h e.symm
      simp [Memory.eraseCell, Memory.lookupCell, ha, hj, ih]
    · simp [Memory.eraseCell, Memory.lookupCell, ha, ih]

theorem Memory.lookupCell_insertCell_ne (m : Memory) {k j : Nat} (v : Byte) (h : j ≠ k) :
    Memory.lookupCell (Memory.insertCell m k v) j = Memory.lookupCell m j := by
  have hj : ¬ k = j := fun e => h e.symm
  induction m with
  | nil => simp [Memory.insertCell, Memory.lookupCell, hj]
  | cons c rest ih =>
    obtain ⟨a, w⟩ := c
    by_cases ha : k < a <;> simp [Memory.insertCell, Memory.lookupCell, ha, hj, ih]

/-- Inserting a cell that is not listed yet makes it read as inserted. -/
theorem Memory.lookupCell_insertCell_same (m : Memory) (k : Nat) (v : Byte) (h : ∀ c ∈ m, c.1 ≠ k) :
    Memory.lookupCell (Memory.insertCell m k v) k = v := by
  induction m with
  | nil => simp [Memory.insertCell, Memory.lookupCell]
  | cons c rest ih =>
    obtain ⟨a, w⟩ := c
    have ha : a ≠ k := h (a, w) (by simp)
    by_cases hk : k < a
    · simp [Memory.insertCell, Memory.lookupCell, hk]
    · simp [Memory.insertCell, Memory.lookupCell, hk, ha, ih fun c hc => h c (by simp [hc])]

theorem Memory.eraseCell_unlisted (m : Memory) (k : Nat) : ∀ c ∈ Memory.eraseCell m k, c.1 ≠ k := by
  induction m with
  | nil => simp [Memory.eraseCell]
  | cons c rest ih =>
    obtain ⟨a, v⟩ := c
    by_cases h : a = k
    · simpa [Memory.eraseCell, h] using ih
    · intro c hc
      simp only [Memory.eraseCell, h, if_false, List.mem_cons] at hc
      rcases hc with rfl | hc
      · exact h
      · exact ih c hc

/-- A cell just written reads as written, in every memory (20_memory.md R51). -/
theorem Memory.read_write_same (m : Memory) {a b : Nat} (v : Byte) (h : b % 256 = a % 256) :
    Memory.read (Memory.write m a v) b = v := by
  have h : b % Config.memSize = a % Config.memSize := h
  simp only [Memory.read, Memory.write, h]
  split
  · next hv => rw [Memory.lookupCell_eraseCell_same, hv]
  · exact Memory.lookupCell_insertCell_same _ _ _ (Memory.eraseCell_unlisted m _)

/-- No other cell changes, in every memory (20_memory.md R51). -/
theorem Memory.read_write_ne (m : Memory) {a b : Nat} (v : Byte) (h : b % 256 ≠ a % 256) :
    Memory.read (Memory.write m a v) b = Memory.read m b := by
  have h : b % Config.memSize ≠ a % Config.memSize := h
  simp only [Memory.read, Memory.write]
  split
  · exact Memory.lookupCell_eraseCell_ne m h
  · rw [Memory.lookupCell_insertCell_ne _ v h, Memory.lookupCell_eraseCell_ne m h]

theorem Memory.wfFrom_mono {m : List Host.Cell} {lo lo' : Nat} (hle : lo' ≤ lo) (h : Memory.wfFrom lo m = true) :
    Memory.wfFrom lo' m = true := by
  cases m with
  | nil => rfl
  | cons c rest =>
    obtain ⟨a, v⟩ := c
    simp only [Memory.wfFrom, Bool.and_eq_true, decide_eq_true_eq] at h ⊢
    exact ⟨⟨⟨by omega, h.1.1.2⟩, h.1.2⟩, h.2⟩

theorem Memory.wfFrom_eraseCell {m : Memory} {lo : Nat} (k : Nat) (h : Memory.wfFrom lo m = true) :
    Memory.wfFrom lo (Memory.eraseCell m k) = true := by
  induction m generalizing lo with
  | nil => rfl
  | cons c rest ih =>
    obtain ⟨a, v⟩ := c
    simp only [Memory.wfFrom, Bool.and_eq_true, decide_eq_true_eq] at h
    by_cases ha : a = k
    · simp only [Memory.eraseCell, ha, if_true]
      exact Memory.wfFrom_mono (by omega) (ih h.2)
    · simp only [Memory.eraseCell, ha, if_false, Memory.wfFrom, Bool.and_eq_true, decide_eq_true_eq]
      exact ⟨h.1, ih h.2⟩

theorem Memory.wfFrom_insertCell {m : Memory} {lo k : Nat} {v : Byte} (hlo : lo ≤ k) (hk : k < Config.memSize)
    (hv : v ≠ Config.memReset) (hm : ∀ c ∈ m, c.1 ≠ k) (h : Memory.wfFrom lo m = true) :
    Memory.wfFrom lo (Memory.insertCell m k v) = true := by
  induction m generalizing lo with
  | nil => simp [Memory.insertCell, Memory.wfFrom, hlo, hk, hv]
  | cons c rest ih =>
    obtain ⟨a, w⟩ := c
    have ha : a ≠ k := hm (a, w) (by simp)
    simp only [Memory.wfFrom, Bool.and_eq_true, decide_eq_true_eq] at h
    by_cases hka : k < a
    · simp only [Memory.insertCell, hka, if_true, Memory.wfFrom, Bool.and_eq_true, decide_eq_true_eq]
      exact ⟨⟨⟨hlo, hk⟩, hv⟩, ⟨⟨by omega, h.1.1.2⟩, h.1.2⟩, h.2⟩
    · simp only [Memory.insertCell, hka, if_false, Memory.wfFrom, Bool.and_eq_true, decide_eq_true_eq]
      exact ⟨h.1, ih (by omega) (fun c hc => hm c (by simp [hc])) h.2⟩

/-- Writing keeps the canonical form. -/
theorem Memory.wf_write {m : Memory} (a : Nat) (v : Byte) (h : Memory.wf m = true) :
    Memory.wf (Memory.write m a v) = true := by
  simp only [Memory.wf, Memory.write] at h ⊢
  split
  · exact Memory.wfFrom_eraseCell _ h
  · next hv =>
    exact Memory.wfFrom_insertCell (Nat.zero_le _) (Nat.mod_lt _ (by decide)) hv (Memory.eraseCell_unlisted m _)
      (Memory.wfFrom_eraseCell _ h)

/-- Loading keeps the canonical form. -/
theorem Memory.wf_loadFrom {m : Memory} (base : Nat) (image : List Byte) (h : Memory.wf m = true) :
    Memory.wf (Memory.loadFrom base image m) = true := by
  induction image generalizing base m with
  | nil => exact h
  | cons b rest ih => exact ih _ (Memory.wf_write base b h)

/-- Memory after reset is in canonical form. -/
theorem Memory.wf_reset : Memory.wf State.reset.mem = true := rfl

/-- Memory after reset reads as zero everywhere (10_state.md R33). -/
theorem Memory.read_reset (a : Nat) : Memory.read State.reset.mem a = Config.memReset := rfl

/-- Loading leaves alone what the image does not reach. -/
theorem Memory.read_loadFrom_outside (image : List Byte) (base : Nat) (m : Memory) {a : Nat} (ha : a < Config.memSize)
    (hb : base + image.length ≤ Config.memSize) (h : a < base ∨ base + image.length ≤ a) :
    Memory.read (Memory.loadFrom base image m) a = Memory.read m a := by
  induction image generalizing base m with
  | nil => rfl
  | cons b rest ih =>
    simp only [List.length_cons] at hb h
    simp only [Memory.loadFrom]
    rw [ih _ _ (by omega) (by omega)]
    refine Memory.read_write_ne m b ?_
    simp only [Config.memSize] at ha hb
    omega

/-- Loading puts byte `i` of the image in cell `base + i` (70_reset_and_hazards.md R191). -/
theorem Memory.read_loadFrom_inside (image : List Byte) (base : Nat) (m : Memory)
    (hb : base + image.length ≤ Config.memSize) (i : Nat) (hi : i < image.length) :
    Memory.read (Memory.loadFrom base image m) (base + i) = image[i] := by
  induction image generalizing base m i with
  | nil => exact absurd hi (Nat.not_lt_zero i)
  | cons b rest ih =>
    simp only [List.length_cons] at hb hi
    simp only [Memory.loadFrom]
    cases i with
    | zero =>
      rw [Nat.add_zero, Memory.read_loadFrom_outside rest _ _ (by omega) (by omega) (by omega)]
      exact Memory.read_write_same m b rfl
    | succ j =>
      have := ih (base + 1) (Memory.write m base b) (by omega) j (by omega)
      simpa [Nat.add_assoc, Nat.add_comm 1 j] using this

/-- A state's read after its write. -/
theorem State.memRead_memWrite (s : State) (a b : Nat) (v : Byte) :
    (s.memWrite a v).memRead b = if b % 256 = a % 256 then v else s.memRead b := by
  split
  · next h => exact Memory.read_write_same s.mem v h
  · next h => exact Memory.read_write_ne s.mem v h

/-- A read takes its address mod 256 (20_memory.md R51). -/
theorem State.memRead_mod (s : State) (a : Nat) : s.memRead (a % 256) = s.memRead a := by
  simp [State.memRead, Memory.read, Config.memSize]

end Sys2Proof.Machine
end

