-- ==== Sys2Proof/Laws/Ops.lean ====
section
/-! SUPPORT. One lemma per shared operation that says once what it can do: a register operand, raising a fatal
condition, a push. -/

namespace Sys2Proof.Machine

/-- A register operand in range gives its register. -/
theorem withReg_legal {b : Byte} (h : b.toNat < 8) (s : State) (k : RegIdx → Host.Outcome State Fault Refusal) :
    withReg b s k = k ⟨b.toNat, h⟩ := by
  simp [withReg, h]

/-- A register operand above 7 raises InvalidRegisterIndex (30_encoding.md R85). -/
theorem withReg_illegal {b : Byte} (h : ¬ b.toNat < 8) (s : State) (k : RegIdx → Host.Outcome State Fault Refusal) :
    withReg b s k = raise .invalidRegisterIndex b s := by
  simp [withReg, h]

/-- Everything a register operand can lead to when it answers a next state. -/
theorem withReg_next {b : Byte} {s t : State} {k : RegIdx → Host.Outcome State Fault Refusal}
    (h : withReg b s k = .next t) :
    (∃ hb : b.toNat < 8, k ⟨b.toNat, hb⟩ = .next t) ∨
      (¬ b.toNat < 8 ∧ t = s.setRun (.faulted .invalidRegisterIndex b s.pc)) := by
  by_cases hb : b.toNat < 8
  · exact .inl ⟨hb, withReg_legal hb s k ▸ h⟩
  · rw [withReg_illegal hb] at h
    exact .inr ⟨hb, (Host.Outcome.next.inj h).symm⟩

/-- Two register operands in range give their registers. -/
theorem withRegs_legal {a b : Byte} (ha : a.toNat < 8) (hb : b.toNat < 8) (s : State)
    (k : RegIdx → RegIdx → Host.Outcome State Fault Refusal) :
    withRegs a b s k = k ⟨a.toNat, ha⟩ ⟨b.toNat, hb⟩ := by
  simp [withRegs, withReg, ha, hb]

/-- The first operand is the one reported when it is out of range (60_exceptions.md R174). -/
theorem withRegs_illegal_first {a b : Byte} (ha : ¬ a.toNat < 8) (s : State)
    (k : RegIdx → RegIdx → Host.Outcome State Fault Refusal) :
    withRegs a b s k = raise .invalidRegisterIndex a s := by
  simp [withRegs, withReg, ha]

/-- The second operand is reported when only it is out of range (60_exceptions.md R174). -/
theorem withRegs_illegal_second {a b : Byte} (ha : a.toNat < 8) (hb : ¬ b.toNat < 8) (s : State)
    (k : RegIdx → RegIdx → Host.Outcome State Fault Refusal) :
    withRegs a b s k = raise .invalidRegisterIndex b s := by
  simp [withRegs, withReg, ha, hb]

/-- Everything two register operands can lead to when they answer a next state. -/
theorem withRegs_next {a b : Byte} {s t : State} {k : RegIdx → RegIdx → Host.Outcome State Fault Refusal}
    (h : withRegs a b s k = .next t) :
    (∃ (ha : a.toNat < 8) (hb : b.toNat < 8), k ⟨a.toNat, ha⟩ ⟨b.toNat, hb⟩ = .next t) ∨
      (¬ a.toNat < 8 ∧ t = s.setRun (.faulted .invalidRegisterIndex a s.pc)) ∨
      (a.toNat < 8 ∧ ¬ b.toNat < 8 ∧ t = s.setRun (.faulted .invalidRegisterIndex b s.pc)) := by
  rcases withReg_next h with ⟨ha, h⟩ | h
  · rcases withReg_next h with ⟨hb, h⟩ | h
    · exact .inl ⟨ha, hb, h⟩
    · exact .inr (.inr ⟨ha, h⟩)
  · exact .inr (.inl h)

/-- What a push leaves in memory: its byte in the cell below the old top, every other cell as before
(42_stack.md R130). -/
theorem State.memRead_push (s : State) (v : Byte) (b : Nat) :
    (s.push v).memRead b = if b % 256 = s.pushAddr.toNat then v else s.memRead b := by
  have h : s.pushAddr.toNat % 256 = s.pushAddr.toNat := Nat.mod_eq_of_lt s.pushAddr.isLt
  show (State.memWrite _ _ v).memRead b = _
  rw [State.memRead_memWrite, h]
  rfl

/-- The byte just pushed is the top of the stack (10_state.md R24). -/
@[simp] theorem State.stackTop_push (s : State) (v : Byte) : (s.push v).stackTop = v := by
  simp [State.stackTop, State.memRead_push, Nat.mod_eq_of_lt (show s.pushAddr.toNat < 256 from s.pushAddr.isLt)]

/-- Dropping the top undoes a push's move of `sp` (42_stack.md R132). -/
@[simp] theorem State.pushAddr_add_one (s : State) : s.pushAddr + 1#8 = s.sp := by
  simp [State.pushAddr]

/-- The cell a push writes, as a number (10_state.md R24). -/
theorem State.pushAddr_toNat (s : State) : s.pushAddr.toNat = (s.sp.toNat + 255) % 256 := by
  simp [State.pushAddr, BitVec.toNat_sub, Nat.add_comm]

end Sys2Proof.Machine
end

