-- ==== Sys2Proof/Laws/Engine.lean ====
section
/-! SUPPORT. Fetching and one step: everything they can do. -/

namespace Sys2Proof.Machine

/-- Everything a fetch can answer: an instruction assembled from the operand bytes, or the unsupported opcode byte
(30_encoding.md R87). -/
theorem fetch_cases (o : OpcodeMap) (s : State) :
    (∃ m, o m = s.instrByte 0 ∧ fetch o s = .instr (assemble m (s.instrByte 1) (s.instrByte 2))) ∨
      ((∀ m, o m ≠ s.instrByte 0) ∧ fetch o s = .unsupported (s.instrByte 0)) := by
  unfold fetch decodeWith
  cases h : lookup o (s.instrByte 0) with
  | none => exact .inr ⟨lookup_none.mp h, rfl⟩
  | some m => exact .inl ⟨m, lookup_some h, rfl⟩

/-- The fetch looks at the three bytes from `pc` only. -/
theorem fetch_congr (o : OpcodeMap) {s t : State} (h : ∀ k < 3, s.instrByte k = t.instrByte k) :
    fetch o s = fetch o t := by
  simp only [fetch, h 0 (by omega), h 1 (by omega), h 2 (by omega)]

/-- Everything a step can do when it answers a next state: the engine was running, and it ran the instruction it
fetched or raised UnsupportedInstruction (30_encoding.md R87). -/
theorem stepWith_next {o : OpcodeMap} {s t : State} (h : stepWith o s = .next t) :
    s.run = .running ∧
      ((∃ i, fetch o s = .instr i ∧ exec i s = .next t) ∨
        (∃ b, fetch o s = .unsupported b ∧ t = s.setRun (.faulted .unsupportedInstruction b s.pc))) := by
  unfold stepWith at h
  cases hr : s.run with
  | running =>
    rw [hr] at h
    refine ⟨rfl, ?_⟩
    cases hf : fetch o s with
    | instr i => rw [hf] at h; exact .inl ⟨i, rfl, h⟩
    | unsupported b => rw [hf] at h; exact .inr ⟨b, rfl, (Host.Outcome.next.inj h).symm⟩
  | halted => rw [hr] at h; cases h
  | faulted c b p => rw [hr] at h; cases h

/-- A running engine runs the instruction it fetched. -/
theorem stepWith_instr {o : OpcodeMap} {s : State} {i : Instr} (hr : s.run = .running) (hf : fetch o s = .instr i) :
    stepWith o s = exec i s := by
  simp [stepWith, runFetched, hr, hf]

/-- A running engine raises UnsupportedInstruction on an opcode it does not know (60_exceptions.md R171). -/
theorem stepWith_unsupported {o : OpcodeMap} {s : State} {b : Byte} (hr : s.run = .running)
    (hf : fetch o s = .unsupported b) : stepWith o s = raise .unsupportedInstruction b s := by
  simp [stepWith, runFetched, hr, hf]

end Sys2Proof.Machine
end

