-- ==== Sys2Proof/Laws/Exec.lean ====
section
/-! SUPPORT. What exec answers for each instruction whose register operands are in range, in the model's operations. -/

namespace Sys2Proof.Machine

variable {r a b : Byte} (s : State)

theorem exec_ldi_legal (h : r.toNat < 8) (imm : Byte) :
    exec (.ldi r imm) s = .next ((s.setReg ⟨r.toNat, h⟩ imm).advance 3) := by
  simp only [exec, execLdi, withReg_legal h]

theorem exec_prn_legal (h : r.toNat < 8) :
    exec (.prn r) s = .next ((s.emit (s.reg ⟨r.toNat, h⟩)).advance 2) := by
  simp only [exec, execPrn, withReg_legal h]

theorem exec_add_legal (ha : a.toNat < 8) (hb : b.toNat < 8) :
    exec (.add a b) s =
      .next ((s.setReg ⟨a.toNat, ha⟩ (aluAdd (s.reg ⟨a.toNat, ha⟩) (s.reg ⟨b.toNat, hb⟩))).advance 3) := by
  simp only [exec, execAdd, withRegs_legal ha hb]

theorem exec_mult_legal (ha : a.toNat < 8) (hb : b.toNat < 8) :
    exec (.mult a b) s =
      .next ((s.setReg ⟨a.toNat, ha⟩ (aluMult (s.reg ⟨a.toNat, ha⟩) (s.reg ⟨b.toNat, hb⟩))).advance 3) := by
  simp only [exec, execMult, withRegs_legal ha hb]

theorem exec_push_legal (h : r.toNat < 8) :
    exec (.push r) s = .next ((s.push (s.reg ⟨r.toNat, h⟩)).advance 2) := by
  simp only [exec, execPush, withReg_legal h]

theorem exec_pop_legal (h : r.toNat < 8) :
    exec (.pop r) s = .next ((s.setReg ⟨r.toNat, h⟩ s.stackTop).dropTop.advance 2) := by
  simp only [exec, execPop, withReg_legal h]

theorem exec_call_legal (h : r.toNat < 8) :
    exec (.call r) s = .next ((s.push (s.pc + 2#8)).setPc (s.reg ⟨r.toNat, h⟩)) := by
  simp only [exec, execCall, withReg_legal h]

theorem exec_ret_next : exec .ret s = .next (s.setPc s.stackTop).dropTop := rfl

theorem exec_jmp_legal (h : r.toNat < 8) :
    exec (.jmp r) s = .next (s.setPc (s.reg ⟨r.toNat, h⟩)) := by
  simp only [exec, execJmp, withReg_legal h]

theorem exec_jeq_legal (h : r.toNat < 8) :
    exec (.jeq r) s = .next (branch (equalSet s.fl) (s.reg ⟨r.toNat, h⟩) s) := by
  simp only [exec, execJeq, withReg_legal h]

theorem exec_jne_legal (h : r.toNat < 8) :
    exec (.jne r) s = .next (branch (greaterOrLessSet s.fl) (s.reg ⟨r.toNat, h⟩) s) := by
  simp only [exec, execJne, withReg_legal h]

theorem exec_cmp_legal (ha : a.toNat < 8) (hb : b.toNat < 8) :
    exec (.cmp a b) s =
      .next ((s.setFl (compareFlags (s.reg ⟨a.toNat, ha⟩) (s.reg ⟨b.toNat, hb⟩))).advance 3) := by
  simp only [exec, execCmp, withRegs_legal ha hb]

theorem exec_hlt_next : exec .hlt s = .next ((s.setRun .halted).advance 1) := rfl

/-- What `t` is when an instruction whose register operands are in range has taken `s` to `t`. -/
def Completed (i : Instr) (s t : State) : Prop :=
  match i with
  | .ldi r imm => ∃ h : r.toNat < 8, t = (s.setReg ⟨r.toNat, h⟩ imm).advance 3
  | .prn r => ∃ h : r.toNat < 8, t = (s.emit (s.reg ⟨r.toNat, h⟩)).advance 2
  | .add a b => ∃ (ha : a.toNat < 8) (hb : b.toNat < 8),
    t = (s.setReg ⟨a.toNat, ha⟩ (aluAdd (s.reg ⟨a.toNat, ha⟩) (s.reg ⟨b.toNat, hb⟩))).advance 3
  | .mult a b => ∃ (ha : a.toNat < 8) (hb : b.toNat < 8),
    t = (s.setReg ⟨a.toNat, ha⟩ (aluMult (s.reg ⟨a.toNat, ha⟩) (s.reg ⟨b.toNat, hb⟩))).advance 3
  | .push r => ∃ h : r.toNat < 8, t = (s.push (s.reg ⟨r.toNat, h⟩)).advance 2
  | .pop r => ∃ h : r.toNat < 8, t = (s.setReg ⟨r.toNat, h⟩ s.stackTop).dropTop.advance 2
  | .call r => ∃ h : r.toNat < 8, t = (s.push (s.pc + 2#8)).setPc (s.reg ⟨r.toNat, h⟩)
  | .ret => t = (s.setPc s.stackTop).dropTop
  | .jmp r => ∃ h : r.toNat < 8, t = s.setPc (s.reg ⟨r.toNat, h⟩)
  | .jeq r => ∃ h : r.toNat < 8, t = branch (equalSet s.fl) (s.reg ⟨r.toNat, h⟩) s
  | .jne r => ∃ h : r.toNat < 8, t = branch (greaterOrLessSet s.fl) (s.reg ⟨r.toNat, h⟩) s
  | .cmp a b => ∃ (ha : a.toNat < 8) (hb : b.toNat < 8),
    t = (s.setFl (compareFlags (s.reg ⟨a.toNat, ha⟩) (s.reg ⟨b.toNat, hb⟩))).advance 3
  | .hlt => t = (s.setRun .halted).advance 1

/-- The completed or faulted end of an instruction with one register operand. -/
theorem of_withReg {r : Byte} {l : List Byte} {s t : State} {f : RegIdx → State}
    (h : withReg r s (fun i => .next (f i)) = .next t) (hr : r ∈ l) :
    (∃ hb : r.toNat < 8, t = f ⟨r.toNat, hb⟩) ∨
      ∃ c ∈ l, ¬ c.toNat < 8 ∧ t = s.setRun (.faulted .invalidRegisterIndex c s.pc) :=
  (withReg_next h).imp (fun ⟨hb, e⟩ => ⟨hb, (Host.Outcome.next.inj e).symm⟩) fun e => ⟨r, hr, e⟩

/-- The completed or faulted end of an instruction with two register operands. -/
theorem of_withRegs {a b : Byte} {l : List Byte} {s t : State} {f : RegIdx → RegIdx → State}
    (h : withRegs a b s (fun i j => .next (f i j)) = .next t) (hla : a ∈ l) (hlb : b ∈ l) :
    (∃ (ha : a.toNat < 8) (hb : b.toNat < 8), t = f ⟨a.toNat, ha⟩ ⟨b.toNat, hb⟩) ∨
      ∃ c ∈ l, ¬ c.toNat < 8 ∧ t = s.setRun (.faulted .invalidRegisterIndex c s.pc) := by
  rcases withRegs_next h with ⟨ha, hb, e⟩ | e | ⟨_, e⟩
  · exact .inl ⟨ha, hb, (Host.Outcome.next.inj e).symm⟩
  · exact .inr ⟨a, hla, e⟩
  · exact .inr ⟨b, hlb, e⟩

/-- Everything exec can do when it answers a next state: the instruction completed, or one of its register operands is
above 7 and only `run` changed. -/
theorem exec_next {i : Instr} {s t : State} (h : exec i s = .next t) :
    Completed i s t ∨
      ∃ c ∈ i.registerOperands, ¬ c.toNat < 8 ∧ t = s.setRun (.faulted .invalidRegisterIndex c s.pc) := by
  cases i with
  | ldi r imm =>
    simp only [exec, execLdi] at h
    exact of_withReg h (by simp [Instr.registerOperands])
  | prn r =>
    simp only [exec, execPrn] at h
    exact of_withReg h (by simp [Instr.registerOperands])
  | push r =>
    simp only [exec, execPush] at h
    exact of_withReg h (by simp [Instr.registerOperands])
  | pop r =>
    simp only [exec, execPop] at h
    exact of_withReg h (by simp [Instr.registerOperands])
  | call r =>
    simp only [exec, execCall] at h
    exact of_withReg h (by simp [Instr.registerOperands])
  | jmp r =>
    simp only [exec, execJmp] at h
    exact of_withReg h (by simp [Instr.registerOperands])
  | jeq r =>
    simp only [exec, execJeq] at h
    exact of_withReg h (by simp [Instr.registerOperands])
  | jne r =>
    simp only [exec, execJne] at h
    exact of_withReg h (by simp [Instr.registerOperands])
  | add a b =>
    simp only [exec, execAdd] at h
    exact of_withRegs h (by simp [Instr.registerOperands]) (by simp [Instr.registerOperands])
  | mult a b =>
    simp only [exec, execMult] at h
    exact of_withRegs h (by simp [Instr.registerOperands]) (by simp [Instr.registerOperands])
  | cmp a b =>
    simp only [exec, execCmp] at h
    exact of_withRegs h (by simp [Instr.registerOperands]) (by simp [Instr.registerOperands])
  | ret => exact .inl (Host.Outcome.next.inj h).symm
  | hlt => exact .inl (Host.Outcome.next.inj h).symm

end Sys2Proof.Machine
end

