-- ==== Sys2Proof/Tests/Slice0.lean ====
section
/-! SUPPORT. Tests: the well-formedness smoke tests, one encoding written out bit by bit per instruction, single steps
with results from 95_test_vectors.md, and a witness for the hypotheses of each statement. -/

namespace Sys2Proof.Tests

open Sys2Proof Sys2Proof.Machine

/-- The reset state with an image at address 0. -/
def loaded (image : List Byte) : State := { State.reset with mem := Memory.loadFrom 0 image [] }

/-- The reset state with an image at address `p` and `pc` there; addresses wrap. -/
def loadedAt (p : Addr) (image : List Byte) : State :=
  { State.reset with pc := p, mem := Memory.loadFrom p.toNat image [] }

/-- The outcome is a next state with the property. -/
def nextHas (r : Host.Outcome State Fault Refusal) (p : State → Bool) : Bool :=
  match r with
  | .next t => p t
  | .fault _ => false
  | .refused _ => false

theorem next_of_nextHas {r : Host.Outcome State Fault Refusal} {p : State → Bool} (h : nextHas r p = true) :
    ∃ t, r = .next t ∧ p t = true := by
  cases r with
  | next t => exact ⟨t, rfl, h⟩
  | fault _ => cases h
  | refused _ => cases h

theorem opc_injective : Function.Injective opc := by
  intro a b h
  cases a <;> cases b <;> first | rfl | exact absurd h (by decide)

/-! ## Well-formedness: an ill-formed term for each check (30_encoding.md R85) -/

theorem test_wf_legal : (Instr.ldi 0x07#8 0xFF#8).wellFormed = true := by decide
theorem test_wf_ldi : (Instr.ldi 0x08#8 0x00#8).wellFormed = false := by decide
theorem test_wf_prn : (Instr.prn 0x08#8).wellFormed = false := by decide
theorem test_wf_add : ((Instr.add 0x08#8 0x00#8).wellFormed || (Instr.add 0x00#8 0x08#8).wellFormed) = false := by decide
theorem test_wf_mult : ((Instr.mult 0x08#8 0x00#8).wellFormed || (Instr.mult 0x00#8 0xFF#8).wellFormed) = false := by decide
theorem test_wf_push : (Instr.push 0x08#8).wellFormed = false := by decide
theorem test_wf_pop : (Instr.pop 0x80#8).wellFormed = false := by decide
theorem test_wf_call : (Instr.call 0xFF#8).wellFormed = false := by decide
theorem test_wf_jmp : (Instr.jmp 0x08#8).wellFormed = false := by decide
theorem test_wf_jeq : (Instr.jeq 0x08#8).wellFormed = false := by decide
theorem test_wf_jne : (Instr.jne 0x09#8).wellFormed = false := by decide
theorem test_wf_cmp : ((Instr.cmp 0x08#8 0x00#8).wellFormed || (Instr.cmp 0x00#8 0x10#8).wellFormed) = false := by decide

/-! ## Decoding: the words of 30_encoding.md R80 and R82, each bit written out, with bytes after them that take no part -/

theorem test_decode_ldi : decode 0b10000010#8 0b00000011#8 0b11111111#8 = .instr (.ldi 0x03#8 0xFF#8) := by decide
theorem test_decode_prn : decode 0b01000111#8 0b00000111#8 0b10101010#8 = .instr (.prn 0x07#8) := by decide
theorem test_decode_add : decode 0b10100000#8 0b00000001#8 0b00000010#8 = .instr (.add 0x01#8 0x02#8) := by decide
theorem test_decode_mult : decode 0b10100010#8 0b00000100#8 0b00000101#8 = .instr (.mult 0x04#8 0x05#8) := by decide
theorem test_decode_push : decode 0b01000101#8 0b00000110#8 0b10101010#8 = .instr (.push 0x06#8) := by decide
theorem test_decode_pop : decode 0b01000110#8 0b00000001#8 0b10101010#8 = .instr (.pop 0x01#8) := by decide
theorem test_decode_call : decode 0b01010000#8 0b00000001#8 0b10101010#8 = .instr (.call 0x01#8) := by decide
theorem test_decode_ret : decode 0b00010001#8 0b10101010#8 0b10101010#8 = .instr .ret := by decide
theorem test_decode_jmp : decode 0b01010100#8 0b00000011#8 0b10101010#8 = .instr (.jmp 0x03#8) := by decide
theorem test_decode_jeq : decode 0b01010101#8 0b00000010#8 0b10101010#8 = .instr (.jeq 0x02#8) := by decide
theorem test_decode_jne : decode 0b01010110#8 0b00000011#8 0b10101010#8 = .instr (.jne 0x03#8) := by decide
theorem test_decode_cmp : decode 0b10100111#8 0b00000000#8 0b00000010#8 = .instr (.cmp 0x00#8 0x02#8) := by decide
theorem test_decode_hlt : decode 0b00000001#8 0b10101010#8 0b10101010#8 = .instr .hlt := by decide

/-- The byte 0x00 is no opcode (30_encoding.md R86). -/
theorem test_decode_zero : decode 0b00000000#8 0b00000000#8 0b00000000#8 = .unsupported 0x00#8 := by decide

/-- The LS-8 SUB byte is no opcode here (vector V73). -/
theorem test_decode_sub : decode 0xA1#8 0x00#8 0x01#8 = .unsupported 0xA1#8 := by decide

/-- The bytes of the first and third lines of program P1 (95_test_vectors.md). -/
theorem test_encode_p1 : encode (.ldi 0x00#8 0x08#8) ++ encode (.mult 0x00#8 0x01#8) ++ encode .hlt =
    [0x82#8, 0x00#8, 0x08#8, 0xA2#8, 0x00#8, 0x01#8, 0x01#8] := by decide

/-- A table word's first byte is its low byte. -/
theorem test_decodeTableWord : decodeTableWord 24 0x080082 = some (.ldi 0x00#8 0x08#8) := by decide

/-- The bits from `nbits` up are zero. -/
theorem test_decodeTableWord_short : decodeTableWord 8 0xFFFF47 = some (.prn 0x00#8) := by decide

theorem test_withFetchWord : nextHas (step (State.reset.withFetchWord 16 0x0747)) (fun t => decide (t.out = [0xF4#8])) = true := by
  decide

/-! ## Single steps (95_test_vectors.md, the vector in each name) -/

theorem test_ldi_v2 : nextHas (step (loaded [0x82#8, 0x07#8, 0x00#8]))
    (fun t => decide (t.reg 7 = 0x00#8 ∧ t.pc = 0x03#8 ∧ t.sp = 0xF4#8)) = true := by decide
theorem test_ldi_v4 : nextHas (step (loadedAt 0xFE#8 [0x82#8, 0x03#8, 0x2A#8]))
    (fun t => decide (t.reg 3 = 0x2A#8 ∧ t.pc = 0x01#8)) = true := by decide

theorem test_prn_v8 : nextHas (step (loaded [0x47#8, 0x07#8]))
    (fun t => decide (t.out = [0xF4#8] ∧ t.outText = ['2', '4', '4', '\n'] ∧ t.pc = 0x02#8)) = true := by decide
theorem test_prn_v11 : nextHas (step (loaded [0x47#8, 0x09#8]))
    (fun t => decide (t.run = .faulted .invalidRegisterIndex 0x09#8 0x00#8 ∧ t.out = [] ∧ t.pc = 0x00#8)) = true := by
  decide

theorem test_add_v13 : nextHas (step (((loaded [0xA0#8, 0x00#8, 0x01#8]).setReg 0 200#8).setReg 1 100#8))
    (fun t => decide (t.reg 0 = 44#8 ∧ t.reg 1 = 100#8 ∧ t.fl = 0x00#8)) = true := by decide
theorem test_add_v20 : nextHas (step (loaded [0xA0#8, 0x09#8, 0x0A#8]))
    (fun t => decide (t.run = .faulted .invalidRegisterIndex 0x09#8 0x00#8)) = true := by decide

theorem test_mult_v23 : nextHas (step (((loaded [0xA2#8, 0x00#8, 0x01#8]).setReg 0 0xFF#8).setReg 1 0xFF#8))
    (fun t => decide (t.reg 0 = 0x01#8 ∧ t.pc = 0x03#8)) = true := by decide
theorem test_mult_v26 : nextHas (step ((loaded [0xA2#8, 0x03#8, 0x03#8]).setReg 3 0x0F#8))
    (fun t => decide (t.reg 3 = 0xE1#8)) = true := by decide

theorem test_push_v29 : nextHas (step { (loadedAt 0x10#8 [0x45#8, 0x02#8]).setReg 2 0x77#8 with sp := 0x00#8 })
    (fun t => decide (t.sp = 0xFF#8 ∧ t.memRead 0xFF = 0x77#8 ∧ t.pc = 0x12#8)) = true := by decide
theorem test_push_v31 : nextHas (step { (loadedAt 0x10#8 [0x45#8, 0x02#8]).setReg 2 0x77#8 with sp := 0x12#8 })
    (fun t => decide (t.sp = 0x11#8 ∧ t.memRead 0x11 = 0x77#8 ∧ t.pc = 0x12#8)) = true := by decide

theorem test_pop_v34 : nextHas (step (loaded [0x46#8, 0x02#8]))
    (fun t => decide (t.reg 2 = 0x00#8 ∧ t.sp = 0xF5#8 ∧ t.pc = 0x02#8)) = true := by decide
theorem test_pop_v35 : nextHas (step { (loadedAt 0x10#8 [0x46#8, 0x02#8]).memWrite 0xFF 0x99#8 with sp := 0xFF#8 })
    (fun t => decide (t.reg 2 = 0x99#8 ∧ t.sp = 0x00#8 ∧ t.memRead 0xFF = 0x99#8)) = true := by decide

theorem test_call_v38 : nextHas (step ((loadedAt 0x06#8 [0x50#8, 0x01#8]).setReg 1 0x0B#8))
    (fun t => decide (t.sp = 0xF3#8 ∧ t.memRead 0xF3 = 0x08#8 ∧ t.pc = 0x0B#8)) = true := by decide
theorem test_call_v40 : nextHas (step ((loadedAt 0xFF#8 [0x50#8, 0x01#8]).setReg 1 0x40#8))
    (fun t => decide (t.sp = 0xF3#8 ∧ t.memRead 0xF3 = 0x01#8 ∧ t.pc = 0x40#8)) = true := by decide

theorem test_ret_v44 : nextHas (step { (loadedAt 0x20#8 [0x11#8]).memWrite 0xFF 0x33#8 with sp := 0xFF#8 })
    (fun t => decide (t.pc = 0x33#8 ∧ t.sp = 0x00#8)) = true := by decide
theorem test_ret_v45 : nextHas (step (loaded [0x11#8])) (fun t => decide (t.pc = 0x00#8 ∧ t.sp = 0xF5#8)) = true := by
  decide

theorem test_jmp_v46 : nextHas (step ((loadedAt 0x14#8 [0x54#8, 0x03#8]).setReg 3 0x0C#8))
    (fun t => decide (t.pc = 0x0C#8 ∧ t.sp = 0xF4#8)) = true := by decide

theorem test_jeq_v58 : nextHas (step (((loadedAt 0x10#8 [0x55#8, 0x02#8]).setReg 2 0x20#8).setFl 0x03#8))
    (fun t => decide (t.pc = 0x20#8 ∧ t.fl = 0x03#8)) = true := by decide
theorem test_jeq_v56 : nextHas (step (loaded [0x55#8, 0xFF#8]))
    (fun t => decide (t.run = .faulted .invalidRegisterIndex 0xFF#8 0x00#8)) = true := by decide

theorem test_jne_v54 : nextHas (step (((loadedAt 0x14#8 [0x56#8, 0x03#8]).setReg 3 0x0C#8).setFl 0x04#8))
    (fun t => decide (t.pc = 0x0C#8)) = true := by decide
theorem test_jne_v55 : nextHas (step ((loadedAt 0x14#8 [0x56#8, 0x03#8]).setReg 3 0x0C#8))
    (fun t => decide (t.pc = 0x16#8)) = true := by decide

theorem test_cmp_v63 : nextHas (step ((loaded [0xA7#8, 0x00#8, 0x01#8]).setReg 1 0xFF#8))
    (fun t => decide (t.fl = 0x04#8 ∧ t.pc = 0x03#8)) = true := by decide
theorem test_cmp_v65 : nextHas (step (((loaded [0xA7#8, 0x00#8, 0x01#8]).setReg 0 0x80#8).setReg 1 0x7F#8))
    (fun t => decide (t.fl = 0x02#8)) = true := by decide

theorem test_hlt_v70 : nextHas (step (loadedAt 0xFF#8 [0x01#8]))
    (fun t => decide (t.run = .halted ∧ t.pc = 0x00#8)) = true := by decide

theorem test_unsupported_v71 : nextHas (step { loaded [0x82#8, 0x00#8, 0x01#8] with pc := 0x03#8 })
    (fun t => decide (t.run = .faulted .unsupportedInstruction 0x00#8 0x03#8 ∧ t.pc = 0x03#8)) = true := by decide

/-! ## Witnesses: the hypotheses of each statement are met, at a boundary of each clause -/

theorem witness_LdiLoadsImmediate : (0x07#8 : Byte).toNat < 8 ∧ 7 < (0x08#8 : Byte).toNat ∧
    nextHas (exec (.ldi 0x07#8 0x00#8) State.reset) (fun t => decide (t.reg 7 = 0x00#8)) = true := by decide
theorem witness_PrnAppendsRegister : (0x07#8 : Byte).toNat < 8 ∧ 7 < (0xFF#8 : Byte).toNat ∧
    nextHas (exec (.prn 0x07#8) State.reset) (fun t => decide (t.out = [0xF4#8])) = true := by decide
theorem witness_AddWrapsIntoFirstRegister : (0x00#8 : Byte).toNat < 8 ∧ (0x07#8 : Byte).toNat < 8 ∧
    7 < (0x08#8 : Byte).toNat ∧
    nextHas (exec (.add 0x07#8 0x07#8) State.reset) (fun t => decide (t.reg 7 = 0xE8#8)) = true := by decide
theorem witness_MultWrapsIntoFirstRegister : (0x00#8 : Byte).toNat < 8 ∧ (0x07#8 : Byte).toNat < 8 ∧
    7 < (0x08#8 : Byte).toNat ∧
    nextHas (exec (.mult 0x00#8 0x07#8) State.reset) (fun t => decide (t.reg 0 = 0x00#8)) = true := by decide
theorem witness_PushStoresBelowStackTop : (0x07#8 : Byte).toNat < 8 ∧ 7 < (0x08#8 : Byte).toNat ∧
    nextHas (exec (.push 0x07#8) State.reset) (fun t => decide (t.memRead 0xF3 = 0xF4#8)) = true := by decide
theorem witness_PopLoadsStackTop : (0x07#8 : Byte).toNat < 8 ∧ 7 < (0x08#8 : Byte).toNat ∧
    nextHas (exec (.pop 0x07#8) State.reset) (fun t => decide (t.reg 7 = 0x00#8)) = true := by decide
theorem witness_CallPushesReturnAddressAndJumps : (0x07#8 : Byte).toNat < 8 ∧ 7 < (0x08#8 : Byte).toNat ∧
    nextHas (exec (.call 0x07#8) State.reset) (fun t => decide (t.pc = 0xF4#8)) = true := by decide
theorem witness_JmpGoesToRegister : (0x07#8 : Byte).toNat < 8 ∧ 7 < (0x08#8 : Byte).toNat ∧
    nextHas (exec (.jmp 0x07#8) State.reset) (fun t => decide (t.pc = 0xF4#8)) = true := by decide
theorem witness_JeqTestsEqualBit : (0x07#8 : Byte).toNat < 8 ∧ 7 < (0x08#8 : Byte).toNat ∧
    (State.reset.setFl 0x01#8).fl.getLsbD 0 = true ∧ State.reset.fl.getLsbD 0 = false := by decide
theorem witness_JneTestsGreaterAndLessBits : (0x07#8 : Byte).toNat < 8 ∧ 7 < (0x08#8 : Byte).toNat ∧
    ((0x02#8 : Byte).getLsbD 1 || (0x02#8 : Byte).getLsbD 2) = true ∧
    ((0x04#8 : Byte).getLsbD 1 || (0x04#8 : Byte).getLsbD 2) = true ∧
    ((0x01#8 : Byte).getLsbD 1 || (0x01#8 : Byte).getLsbD 2) = false := by decide
theorem witness_CmpSetsExactlyOneFlag : (0x06#8 : Byte).toNat < 8 ∧ (0x07#8 : Byte).toNat < 8 ∧
    7 < (0x08#8 : Byte).toNat ∧ (State.reset.reg 0).toNat = (State.reset.reg 6).toNat ∧
    (State.reset.reg 7).toNat > (State.reset.reg 6).toNat ∧ (State.reset.reg 6).toNat < (State.reset.reg 7).toNat := by
  decide
theorem witness_FirstBadRegisterOperandIsReported :
    (Instr.add 0x07#8 0x08#8).registerOperands.find? (fun x => decide (7 < x.toNat)) = some 0x08#8 ∧
    (Instr.add 0x09#8 0x08#8).registerOperands.find? (fun x => decide (7 < x.toNat)) = some 0x09#8 ∧
    (Instr.add 0x07#8 0x00#8).registerOperands.find? (fun x => decide (7 < x.toNat)) = none := by decide
theorem witness_StepRunsDecodedInstruction : Function.Injective opc ∧
    (loadedAt 0xFE#8 [0x82#8, 0x03#8, 0x2A#8]).run = .running ∧
    (∀ (k : Nat) (hk : k < (encodeWith opc (.ldi 0x03#8 0x2A#8)).length),
      (loadedAt 0xFE#8 [0x82#8, 0x03#8, 0x2A#8]).memRead (0xFE + k) = (encodeWith opc (.ldi 0x03#8 0x2A#8))[k]) ∧
    decode ((loaded [0x01#8]).memRead 0) ((loaded [0x01#8]).memRead 1) ((loaded [0x01#8]).memRead 2) = .instr .hlt :=
  ⟨opc_injective, by decide, by decide, by decide⟩
theorem witness_UnsupportedOpcodeIsFatal : State.reset.run = .running ∧
    ∀ m, opc m ≠ State.reset.memRead State.reset.pc.toNat :=
  ⟨rfl, fun m => by cases m <;> decide⟩
theorem witness_StoppedEngineTakesNoStep : (State.reset.setRun .halted).run = .halted ∧
    (State.reset.setRun (.faulted .invalidRegisterIndex 0x08#8 0x00#8)).run =
      .faulted .invalidRegisterIndex 0x08#8 0x00#8 := ⟨rfl, rfl⟩
theorem witness_RunningEngineAlwaysSteps : (loaded [0x01#8]).run = .running ∧ State.reset.run = .running := ⟨rfl, rfl⟩
theorem witness_FaultsArePrecise :
    (∃ t, stepWith opc State.reset = .next t ∧ t.goneWrong = true) ∧
    (∃ t, stepWith opc (loaded [0x47#8, 0x08#8]) = .next t ∧ t.goneWrong = true) :=
  ⟨next_of_nextHas (by decide), next_of_nextHas (by decide)⟩
theorem witness_RunStatusEdges :
    (∃ t, stepWith opc (loaded [0x01#8]) = .next t ∧ decide (t.run = .halted) = true) ∧
    (∃ t, stepWith opc (loaded [0x11#8]) = .next t ∧ decide (t.run = .running) = true) :=
  ⟨next_of_nextHas (by decide), next_of_nextHas (by decide)⟩
theorem witness_DecodeInvertsEncode : Function.Injective opc ∧
    encodeWith opc (.prn 0xFF#8) ++ [0x82#8, 0x00#8] = 0x47#8 :: 0xFF#8 :: 0x82#8 :: [0x00#8] :=
  ⟨opc_injective, by decide⟩
theorem witness_EncodeInvertsDecode : decodeWith opc 0x11#8 0x82#8 0x00#8 = .instr .ret ∧
    decodeWith opc 0x00#8 0x82#8 0x00#8 = .unsupported 0x00#8 := by decide
theorem witness_OpcodeByteAloneSelects : Function.Injective opc ∧ (∀ m, opc m ≠ 0xFF#8) ∧
    (∀ k < 3, (loaded [0x01#8]).memRead (0 + k) = (loadedAt 0xFF#8 [0x01#8]).memRead (255 + k)) :=
  ⟨opc_injective, fun m => by cases m <;> decide, by decide⟩
theorem witness_LengthFollowsFromOpcode : decodeWith opc 0x47#8 0x07#8 0xAA#8 = .instr (.prn 0x07#8) ∧
    fetch opc State.reset = .unsupported 0x00#8 ∧
    (∃ t, stepWith opc State.reset = .next t ∧ decide (t.pc = 0x00#8) = true) ∧ 0x01 % 256 ≠ State.reset.pc.toNat ∧
    (Instr.prn 0x07#8).wellFormed = true ∧ (Instr.prn 0x07#8).mnemonic ∉ [Mnemonic.call, .ret, .jmp, .jeq, .jne] ∧
    (∃ t, exec (.prn 0x07#8) State.reset = .next t ∧ decide (t.pc = 0x02#8) = true) :=
  ⟨by decide, by decide, next_of_nextHas (by decide), by decide, by decide, by decide, next_of_nextHas (by decide)⟩
theorem witness_OperandBytesFollowOpcode :
    fetch opc (loadedAt 0xFF#8 [0xA0#8, 0x01#8, 0x02#8]) = .instr (.add 0x01#8 0x02#8) ∧
    (0x07#8 : Byte).toNat < 8 ∧ (0x00#8 : Byte).toNat < 8 ∧
    (∃ t, exec (.jne 0x07#8) State.reset = .next t ∧ decide (t.pc = 0x02#8) = true) ∧
    (∃ t, exec (.jeq 0x07#8) (State.reset.setFl 0x01#8) = .next t ∧ decide (t.pc = 0xF4#8) = true) ∧
    (∃ t, exec (.cmp 0x07#8 0x00#8) State.reset = .next t ∧ decide (t.fl = 0x02#8) = true) :=
  ⟨by decide, by decide, by decide, next_of_nextHas (by decide), next_of_nextHas (by decide),
    next_of_nextHas (by decide)⟩
theorem witness_StepKeepsInvariant : (loaded [0x45#8, 0x07#8]).inv opc = true ∧
    (∃ t, stepWith opc (loaded [0x45#8, 0x07#8]) = .next t ∧ decide (t.memRead 0xF3 = 0xF4#8) = true) ∧
    (loaded [0x45#8, 0x08#8]).inv opc = true ∧
    (∃ t, stepWith opc (loaded [0x45#8, 0x08#8]) = .next t ∧ t.goneWrong = true) :=
  ⟨by decide, next_of_nextHas (by decide), by decide, next_of_nextHas (by decide)⟩
theorem witness_LaunchMeetsInvariant : (∃ s, launch [0x01#8] = .next s ∧ decide (s.memRead 0 = 0x01#8) = true) ∧
    (∃ s, launch [] = .next s ∧ decide (s = State.reset) = true) :=
  ⟨next_of_nextHas (by decide), next_of_nextHas (by decide)⟩
theorem witness_FlagsStayOneHotAfterCompare : (Instr.cmp 0x07#8 0x00#8).wellFormed = true ∧
    (∃ t, exec (.cmp 0x07#8 0x00#8) State.reset = .next t ∧ decide (t.fl = 0x02#8) = true) ∧
    flCompared ((loaded [0x01#8]).setFl 0x04#8).fl = true ∧
    (∃ t, stepWith opc ((loaded [0x01#8]).setFl 0x04#8) = .next t ∧ decide (t.fl = 0x04#8) = true) :=
  ⟨by decide, next_of_nextHas (by decide), by decide, next_of_nextHas (by decide)⟩
theorem witness_CanonicalMemoriesReadingAlikeAreEqual :
    Memory.wf (Memory.write (Memory.write [] 0xFF 0x01#8) 0x00 0x02#8) = true ∧
    Memory.wf [(0x00, 0x02#8), (0xFF, 0x01#8)] = true ∧
    (∀ a : Nat, Memory.read (Memory.write (Memory.write [] 0xFF 0x01#8) 0x00 0x02#8) a =
      Memory.read [(0x00, 0x02#8), (0xFF, 0x01#8)] a) :=
  ⟨by decide, by decide, fun _ => rfl⟩
theorem witness_RegisterFileReadsAndWrites :
    (∃ t, exec (.pop 0x07#8) State.reset = .next t ∧ decide (t.reg 0 = 0x00#8) = true) ∧
    (destination (.pop 0x07#8)).map BitVec.toNat ≠ some 0 ∧
    (∃ t, exec (.jeq 0x07#8) State.reset = .next t ∧ decide (t.pc = 0x02#8) = true) ∧
    (∀ b ∈ sources State.reset.fl (.jeq 0x07#8), b.toNat ≠ 7) ∧
    (Instr.pop 0x07#8).wellFormed = true ∧ destination (.pop 0x07#8) = some 0x07#8 ∧
    (Instr.cmp 0x00#8 0x07#8).wellFormed = true ∧ 0x07#8 ∈ sources 0x00#8 (.cmp 0x00#8 0x07#8) ∧
    Instr.cmp 0x00#8 0x07#8 ≠ .cmp 0x07#8 0x07#8 ∧ (Instr.add 0x07#8 0x08#8).wellFormed = false ∧
    (∃ t, exec (.add 0x07#8 0x08#8) State.reset = .next t ∧ decide (t.reg 7 = 0xF4#8) = true) :=
  ⟨next_of_nextHas (by decide), by decide, next_of_nextHas (by decide), by decide, by decide, by decide, by decide,
    by decide, by decide, by decide, next_of_nextHas (by decide)⟩
theorem witness_StackPointerMoves : (Instr.push 0x00#8).wellFormed = true ∧ (Instr.push 0x08#8).wellFormed = false ∧
    (∃ t, exec (.push 0x08#8) State.reset = .next t ∧ decide (t.sp = 0xF4#8) = true) ∧
    fetch opc State.reset = .unsupported 0x00#8 ∧
    (∃ t, stepWith opc State.reset = .next t ∧ decide (t.sp = 0xF4#8) = true) ∧
    (∃ t, exec (.push 0x07#8) State.reset = .next t ∧ decide (t.sp = 0xF3#8) = true) ∧
    (∃ t, exec (.call 0x07#8) (State.reset.setPc 0xFE#8) = .next t ∧ decide (t.memRead 0xF3 = 0x00#8) = true) ∧
    State.reset.memRead 0x00 = State.reset.memRead State.reset.sp.toNat :=
  ⟨by decide, by decide, next_of_nextHas (by decide), by decide, next_of_nextHas (by decide),
    next_of_nextHas (by decide), next_of_nextHas (by decide), by decide⟩
theorem witness_OnlyCompareTouchesFlags : (Instr.add 0x00#8 0x07#8).mnemonic ≠ .cmp ∧
    (∃ t, exec (.add 0x00#8 0x07#8) (State.reset.setFl 0x02#8) = .next t ∧ decide (t.fl = 0x02#8) = true) ∧
    (Instr.cmp 0x00#8 0x07#8).wellFormed = true ∧
    (∃ t, exec (.cmp 0x00#8 0x07#8) State.reset = .next t ∧ decide (t.fl = 0x04#8) = true) :=
  ⟨by decide, next_of_nextHas (by decide), by decide, next_of_nextHas (by decide)⟩
theorem witness_OnlyPushAndCallStore :
    (∃ t, stepWith opc (loaded [0x50#8, 0x07#8]) = .next t ∧ decide (t.memRead 0xF3 = 0x02#8) = true) ∧
    (∃ t, stepWith opc (loaded [0x46#8, 0x07#8]) = .next t ∧ decide (t.sp = 0xF5#8) = true) ∧
    (∀ i, fetch opc (loaded [0x46#8, 0x07#8]) = .instr i → (stores i && i.wellFormed) = false) := by
  refine ⟨next_of_nextHas (by decide), next_of_nextHas (by decide), fun i h => ?_⟩
  have e : fetch opc (loaded [0x46#8, 0x07#8]) = .instr (.pop 0x07#8) := by decide
  rw [e] at h
  cases h
  rfl
theorem witness_ListedAccessesAreComplete :
    accesses opc (loadedAt 0xFF#8 [0x45#8, 0x07#8]) = [.fetchRead 0xFF#8, .fetchRead 0x00#8, .stackWrite 0xF3#8] ∧
    (∃ t, stepWith opc (loadedAt 0xFF#8 [0x45#8, 0x07#8]) = .next t ∧ decide (t.memRead 0xF3 = 0xF4#8) = true) ∧
    (Access.stackWrite 0xF2#8) ∉ accesses opc (loadedAt 0xFF#8 [0x45#8, 0x07#8]) ∧
    (Access.fetchRead 0x01#8) ∉ accesses opc (loadedAt 0xFF#8 [0x45#8, 0x07#8]) ∧
    (Access.stackRead 0x01#8) ∉ accesses opc (loadedAt 0xFF#8 [0x45#8, 0x07#8]) :=
  ⟨by decide, next_of_nextHas (by decide), by decide, by decide, by decide⟩
theorem witness_OutputIsAppendOnlyAndUnread :
    (∃ t, stepWith opc (loaded [0x47#8, 0x07#8]) = .next t ∧ decide (t.out = [0xF4#8]) = true) ∧
    fetch opc (loaded [0x47#8, 0x07#8]) = .instr (.prn 0x07#8) ∧ (0x07#8 : Byte).toNat < 8 ∧
    (∃ t, stepWith opc (loaded [0x11#8]) = .next t ∧ decide (t.out = []) = true) ∧
    (∀ r : Byte, r.toNat < 8 → fetch opc (loaded [0x11#8]) ≠ .instr (.prn r)) := by
  refine ⟨next_of_nextHas (by decide), by decide, by decide, next_of_nextHas (by decide), fun r _ h => ?_⟩
  have e : fetch opc (loaded [0x11#8]) = .instr .ret := by decide
  rw [e] at h
  cases h
theorem witness_ProgramCounterTable : (Instr.jeq 0x07#8).wellFormed = true ∧
    (∃ t, exec (.jeq 0x07#8) (State.reset.setFl 0x01#8) = .next t ∧ decide (t.pc = 0xF4#8) = true) ∧
    (∃ t, exec (.jeq 0x07#8) State.reset = .next t ∧ decide (t.pc = 0x02#8) = true) ∧
    (∃ t, stepWith opc State.reset = .next t ∧ t.goneWrong = true) :=
  ⟨by decide, next_of_nextHas (by decide), next_of_nextHas (by decide), next_of_nextHas (by decide)⟩
theorem witness_RegisterSevenIsNotTheStackPointer :
    (∃ t, exec (.ldi 0x07#8 0x00#8) State.reset = .next t ∧ decide (t.sp = 0xF4#8) = true) ∧
    (destination (.ldi 0x07#8 0x00#8)).isSome = true ∧ (Instr.ldi 0x07#8 0x00#8).mnemonic ≠ .pop ∧
    (∃ t, exec (.pop 0x07#8) State.reset = .next t ∧ decide (t.sp = 0xF5#8) = true) ∧
    (∃ t, exec (.pop 0x00#8) State.reset = .next t ∧ decide (t.sp = 0xF5#8) = true) ∧
    (∃ t, exec (.push 0x07#8) State.reset = .next t ∧ decide (t.reg 7 = 0xF4#8) = true) ∧
    (Instr.push 0x07#8).mnemonic ∈ [Mnemonic.push, .call, .ret] :=
  ⟨next_of_nextHas (by decide), by decide, by decide, next_of_nextHas (by decide), next_of_nextHas (by decide),
    next_of_nextHas (by decide), by decide⟩
theorem witness_GreaterAndLessAreIndistinguishable :
    sameUpToOrder ((loaded [0x56#8, 0x07#8]).setFl 0x02#8) ((loaded [0x56#8, 0x07#8]).setFl 0x04#8) ∧
    (∃ t, stepWith opc ((loaded [0x56#8, 0x07#8]).setFl 0x02#8) = .next t ∧ decide (t.pc = 0xF4#8) = true) :=
  ⟨⟨.inr ⟨.inl rfl, .inr rfl⟩, rfl⟩, next_of_nextHas (by decide)⟩
theorem witness_LaunchPlacesImage : ([] : List Byte).length ≤ 256 ∧ (List.replicate 256 0x01#8).length ≤ 256 ∧
    256 < (List.replicate 257 0x01#8).length ∧ (0 : Nat) < [0x01#8].length := by
  refine ⟨by decide, ?_, ?_, by decide⟩ <;> rw [List.length_replicate]
  decide
theorem witness_RunningOffTheImageFaults :
    (∃ s, launch [0x46#8, 0x00#8] = .next s ∧ decide (s.memRead 0x02 = 0x00#8) = true) ∧
    { loaded [0x46#8, 0x00#8] with pc := 0x02#8 }.run = .running ∧ [0x46#8, 0x00#8].length ≤ (0x02#8 : Addr).toNat ∧
    { loaded [0x46#8, 0x00#8] with pc := 0x02#8 }.memRead 0x02 = (loaded [0x46#8, 0x00#8]).memRead 0x02 :=
  ⟨next_of_nextHas (by decide), by decide, by decide, by decide⟩
theorem witness_StoredBytesAreFetched : (0x07#8 : Byte).toNat < 8 ∧
    { loaded [0x45#8, 0x07#8] with sp := 0x02#8 }.run = .running ∧
    fetch opc { loaded [0x45#8, 0x07#8] with sp := 0x02#8 } = .instr (.push 0x07#8) ∧
    (0x02 + 255) % 256 = (0 + 1) % 256 ∧
    { loadedAt 0xFF#8 [0x50#8, 0x07#8] with sp := 0x00#8 }.run = .running ∧
    fetch opc { loadedAt 0xFF#8 [0x50#8, 0x07#8] with sp := 0x00#8 } = .instr (.call 0x07#8) ∧
    (0x00 + 255) % 256 = (0xFF + 0) % 256 :=
  ⟨by decide, by decide, by decide, by decide, by decide, by decide, by decide⟩
theorem witness_LdiThenPrnPrintsImmediate : Function.Injective opc ∧ (0x07#8 : Byte).toNat < 8 ∧
    (loadedAt 0xFD#8 [0x82#8, 0x07#8, 0xFF#8, 0x47#8, 0x07#8]).run = .running ∧
    (∀ (k : Nat) (hk : k < 5), (loadedAt 0xFD#8 [0x82#8, 0x07#8, 0xFF#8, 0x47#8, 0x07#8]).memRead (0xFD + k) =
      [opc .ldi, 0x07#8, 0xFF#8, opc .prn, 0x07#8][k]) :=
  ⟨opc_injective, by decide, by decide, by decide⟩
theorem witness_PushThenPopRoundTrip : Function.Injective opc ∧ (0x07#8 : Byte).toNat < 8 ∧ (0x00#8 : Byte).toNat < 8 ∧
    (loaded [0x45#8, 0x07#8, 0x46#8, 0x00#8]).run = .running ∧
    (∀ (k : Nat) (hk : k < 4), (loaded [0x45#8, 0x07#8, 0x46#8, 0x00#8]).memRead (0 + k) =
      [opc .push, 0x07#8, opc .pop, 0x00#8][k]) ∧
    (loaded [0x45#8, 0x07#8, 0x46#8, 0x00#8]).pushAddr.toNat ≠ (0 + 2) % 256 ∧
    (loaded [0x45#8, 0x07#8, 0x46#8, 0x00#8]).pushAddr.toNat ≠ (0 + 3) % 256 :=
  ⟨opc_injective, by decide, by decide, by decide, by decide, by decide, by decide⟩
theorem witness_CallThenRetResumes : (0x07#8 : Byte).toNat < 8 ∧
    (∃ t, exec (.call 0x07#8) State.reset = .next t ∧ decide (t.sp = 0xF3#8 ∧ t.memRead 0xF3 = 0x02#8) = true) :=
  ⟨by decide, next_of_nextHas (by decide)⟩
theorem witness_ArithmeticIsModulo256 : (0x00#8 : Byte).toNat < 8 ∧ (0x07#8 : Byte).toNat < 8 ∧
    (State.reset.reg 7).toInt = -12 := by decide

end Sys2Proof.Tests
end

section
/-! SUPPORT. The family 10_state.md: what a completed or a faulting instruction does to the registers and to `sp`. -/

namespace Sys2Proof.Machine

/-! ## Writes to the register file, and the operations that commute with them -/

/-- The last of two writes to one register counts. -/
theorem State.setReg_setReg_same (s : State) (k : RegIdx) (v w : Byte) : (s.setReg k v).setReg k w = s.setReg k w := by
  simp [State.setReg]

/-- Writes to two registers commute. -/
theorem State.setReg_comm (s : State) {j k : RegIdx} (h : j ≠ k) (v w : Byte) :
    (s.setReg j v).setReg k w = (s.setReg k w).setReg j v := by
  simp only [State.setReg, Vector.set_comm v w (Fin.val_ne_of_ne h)]

section
variable (s : State) (k : RegIdx) (v : Byte)

@[simp] theorem State.advance_setReg (n : Nat) : (s.setReg k v).advance n = (s.advance n).setReg k v := rfl
@[simp] theorem State.setPc_setReg (a : Addr) : (s.setReg k v).setPc a = (s.setPc a).setReg k v := rfl
@[simp] theorem State.setFl_setReg (f : Byte) : (s.setReg k v).setFl f = (s.setFl f).setReg k v := rfl
@[simp] theorem State.setRun_setReg (r : RunStatus) : (s.setReg k v).setRun r = (s.setRun r).setReg k v := rfl
@[simp] theorem State.emit_setReg (w : Byte) : (s.setReg k v).emit w = (s.emit w).setReg k v := rfl
@[simp] theorem State.push_setReg (w : Byte) : (s.setReg k v).push w = (s.push w).setReg k v := rfl
@[simp] theorem State.dropTop_setReg : (s.setReg k v).dropTop = s.dropTop.setReg k v := rfl

@[simp] theorem branch_setReg (c : Bool) (a : Addr) : branch c a (s.setReg k v) = (branch c a s).setReg k v := by
  cases c <;> rfl

@[simp] theorem branch_regs (c : Bool) (a : Addr) : (branch c a s).regs = s.regs := by cases c <;> rfl
@[simp] theorem branch_sp (c : Bool) (a : Addr) : (branch c a s).sp = s.sp := by cases c <;> rfl
@[simp] theorem branch_run (c : Bool) (a : Addr) : (branch c a s).run = s.run := by cases c <;> rfl
end

/-! ## The tests of JEQ and JNE, by the bits of `fl` -/

/-- JEQ's test is bit 0 (43_control_transfer.md R143). -/
theorem equalSet_eq_bit (fl : Byte) : equalSet fl = fl.getLsbD 0 := by
  have hE : fl &&& flE = if fl.getLsbD 0 then flE else 0#8 := BitVec.and_twoPow fl 0
  rw [equalSet, hE]
  cases fl.getLsbD 0 <;> rfl

/-- JNE's test is bit 1 or bit 2 (43_control_transfer.md R144). -/
theorem greaterOrLessSet_eq_bits (fl : Byte) : greaterOrLessSet fl = (fl.getLsbD 1 || fl.getLsbD 2) := by
  have hG : fl &&& flG = if fl.getLsbD 1 then flG else 0#8 := BitVec.and_twoPow fl 1
  have hL : fl &&& flL = if fl.getLsbD 2 then flL else 0#8 := BitVec.and_twoPow fl 2
  rw [greaterOrLessSet, BitVec.and_or_distrib_left, hG, hL]
  cases fl.getLsbD 1 <;> cases fl.getLsbD 2 <;> rfl

/-- JEQ reads its register exactly when it is taken (10_state.md R21). -/
theorem sources_jeq (fl r : Byte) : sources fl (.jeq r) = if equalSet fl then [r] else [] := by
  rw [equalSet_eq_bit, sources]

/-- JNE reads its register exactly when it is taken (10_state.md R21). -/
theorem sources_jne (fl r : Byte) : sources fl (.jne r) = if greaterOrLessSet fl then [r] else [] := by
  rw [greaterOrLessSet_eq_bits, sources]

/-- A jump's target register takes part only when the jump is taken. -/
theorem branch_reg_setReg_unread (s : State) {taken : Bool} {i k : RegIdx} (v : Byte) (h : taken = true → i ≠ k) :
    branch taken ((s.setReg k v).reg i) (s.setReg k v) = (branch taken (s.reg i) s).setReg k v := by
  cases taken with
  | false => rfl
  | true => rw [State.reg_setReg_ne _ (h rfl), branch_setReg]

/-! ## Well-formed instructions complete, ill-formed ones raise InvalidRegisterIndex -/

theorem wellFormed_iff {i : Instr} : i.wellFormed = true ↔ ∀ b ∈ i.registerOperands, b.toNat < 8 := by
  simp [Instr.wellFormed, isRegByte]

/-- `Completed` describes what exec answers, not only what it may answer. -/
theorem exec_of_completed {i : Instr} {s t : State} (h : Completed i s t) : exec i s = .next t := by
  cases i with
  | ldi r imm => obtain ⟨hr, rfl⟩ := h; exact exec_ldi_legal s hr imm
  | prn r => obtain ⟨hr, rfl⟩ := h; exact exec_prn_legal s hr
  | add a b => obtain ⟨ha, hb, rfl⟩ := h; exact exec_add_legal s ha hb
  | mult a b => obtain ⟨ha, hb, rfl⟩ := h; exact exec_mult_legal s ha hb
  | push r => obtain ⟨hr, rfl⟩ := h; exact exec_push_legal s hr
  | pop r => obtain ⟨hr, rfl⟩ := h; exact exec_pop_legal s hr
  | call r => obtain ⟨hr, rfl⟩ := h; exact exec_call_legal s hr
  | ret => obtain rfl : t = _ := h; exact exec_ret_next s
  | jmp r => obtain ⟨hr, rfl⟩ := h; exact exec_jmp_legal s hr
  | jeq r => obtain ⟨hr, rfl⟩ := h; exact exec_jeq_legal s hr
  | jne r => obtain ⟨hr, rfl⟩ := h; exact exec_jne_legal s hr
  | cmp a b => obtain ⟨ha, hb, rfl⟩ := h; exact exec_cmp_legal s ha hb
  | hlt => obtain rfl : t = _ := h; exact exec_hlt_next s

/-- A well-formed instruction completes from every state: `Completed` asks for operands in range and names the state
that follows. -/
theorem exists_completed {i : Instr} (hi : i.wellFormed = true) (s : State) : ∃ t, Completed i s t := by
  rw [wellFormed_iff] at hi
  cases i <;> simp_all [Completed, Instr.registerOperands]

/-- A well-formed instruction ends in no other way than completed. -/
theorem completed_of_wellFormed {i : Instr} {s t : State} (hi : i.wellFormed = true) (h : exec i s = .next t) :
    Completed i s t := by
  rcases exec_next h with hc | ⟨c, hc, hbad, -⟩
  · exact hc
  · exact absurd (wellFormed_iff.mp hi c hc) hbad

/-- The byte two register operands report does not depend on the state. -/
theorem withRegs_illegal {a b : Byte} (h : ¬ (a.toNat < 8 ∧ b.toNat < 8)) :
    ∃ c, ∀ (s : State) (k : RegIdx → RegIdx → Host.Outcome State Fault Refusal),
      withRegs a b s k = raise .invalidRegisterIndex c s := by
  by_cases ha : a.toNat < 8
  · exact ⟨b, withRegs_illegal_second ha fun hb => h ⟨ha, hb⟩⟩
  · exact ⟨a, withRegs_illegal_first ha⟩

/-- An ill-formed instruction reports the same operand byte from every state (60_exceptions.md R172). -/
theorem exec_illFormed {i : Instr} (hi : i.wellFormed = false) :
    ∃ c, ∀ s, exec i s = raise .invalidRegisterIndex c s := by
  rw [← Bool.not_eq_true, wellFormed_iff] at hi
  cases i <;> simp only [Instr.registerOperands, List.forall_mem_cons, List.not_mem_nil, false_imp_iff, implies_true,
    and_true, not_true_eq_false] at hi
  case add | mult | cmp =>
    obtain ⟨c, hc⟩ := withRegs_illegal hi
    exact ⟨c, fun s => by simp only [exec, execAdd, execMult, execCmp, hc]⟩
  case ldi r _ | prn r | push r | pop r | call r | jmp r | jeq r | jne r =>
    exact ⟨r, fun s => by
      simp only [exec, execLdi, execPrn, execPush, execPop, execCall, execJmp, execJeq, execJne, withReg_illegal hi]⟩

/-- An ill-formed instruction changes nothing but `run`, in the same way whatever the state holds (D5, D6). -/
theorem exec_illFormed_next {i : Instr} {s t : State} (hi : i.wellFormed = false) (h : exec i s = .next t) :
    ∃ c, t = s.setRun (.faulted .invalidRegisterIndex c s.pc) ∧
      ∀ s', exec i s' = .next (s'.setRun (.faulted .invalidRegisterIndex c s'.pc)) := by
  obtain ⟨c, hc⟩ := exec_illFormed hi
  exact ⟨c, (Host.Outcome.next.inj ((hc s).symm.trans h)).symm, hc⟩

/-! ## What a completed instruction does to the registers and to `sp` -/

/-- Only the destination changes (10_state.md R21). -/
theorem Completed.reg_eq {i : Instr} {s t : State} (h : Completed i s t) {k : RegIdx}
    (hk : (destination i).map BitVec.toNat ≠ some k.val) : t.reg k = s.reg k := by
  cases i with
  | ldi r imm | pop r =>
    obtain ⟨hr, rfl⟩ := h
    have hne : k ≠ ⟨r.toNat, hr⟩ := fun e => hk (by rw [e]; rfl)
    simp [State.reg_setReg_ne _ hne]
  | add a b | mult a b =>
    obtain ⟨ha, hb, rfl⟩ := h
    have hne : k ≠ ⟨a.toNat, ha⟩ := fun e => hk (by rw [e]; rfl)
    simp [State.reg_setReg_ne _ hne]
  | prn r | push r | call r | jmp r => obtain ⟨hr, rfl⟩ := h; rfl
  | jeq r | jne r => obtain ⟨hr, rfl⟩ := h; simp [State.reg]
  | cmp a b => obtain ⟨ha, hb, rfl⟩ := h; rfl
  | ret | hlt => obtain rfl : t = _ := h; rfl

/-- The move of `sp` (10_state.md R24). -/
theorem Completed.sp_eq {i : Instr} {s t : State} (h : Completed i s t) : t.sp.toNat = spAfter s.sp.toNat i := by
  cases i with
  | push r | call r => obtain ⟨hr, rfl⟩ := h; exact s.pushAddr_toNat
  | pop r => obtain ⟨hr, rfl⟩ := h; exact BitVec.toNat_add ..
  | ret => obtain rfl : t = _ := h; exact BitVec.toNat_add ..
  | ldi r _ | prn r | jmp r => obtain ⟨hr, rfl⟩ := h; rfl
  | jeq r | jne r => obtain ⟨hr, rfl⟩ := h; simp [spAfter]
  | add a b | mult a b | cmp a b => obtain ⟨ha, hb, rfl⟩ := h; rfl
  | hlt => obtain rfl : t = _ := h; rfl

/-- Only HLT changes `run` when it completes (10_state.md R28). -/
theorem Completed.run_eq {i : Instr} {s t : State} (h : Completed i s t) : t.run = s.run ∨ i = .hlt := by
  cases i with
  | hlt => exact .inr rfl
  | ret => obtain rfl : t = _ := h; exact .inl rfl
  | ldi r _ | prn r | push r | pop r | call r | jmp r => obtain ⟨hr, rfl⟩ := h; exact .inl rfl
  | jeq r | jne r => obtain ⟨hr, rfl⟩ := h; exact .inl (branch_run ..)
  | add a b | mult a b | cmp a b => obtain ⟨ha, hb, rfl⟩ := h; exact .inl rfl

/-- The registers an instruction leaves depend on the registers and the top of the stack only (10_state.md R21). -/
theorem Completed.regs_congr {i : Instr} {s t s' t' : State} (h : Completed i s t) (h' : Completed i s' t')
    (hregs : s'.regs = s.regs) (htop : s'.stackTop = s.stackTop) : t'.regs = t.regs := by
  have hreg (k : RegIdx) : s'.reg k = s.reg k := by rw [State.reg, hregs, State.reg]
  cases i with
  | ldi r imm | pop r => obtain ⟨hr, rfl⟩ := h; obtain ⟨-, rfl⟩ := h'; simp [hregs, htop]
  | add a b | mult a b => obtain ⟨ha, hb, rfl⟩ := h; obtain ⟨-, -, rfl⟩ := h'; simp [hregs, hreg]
  | prn r | push r | call r | jmp r => obtain ⟨hr, rfl⟩ := h; obtain ⟨-, rfl⟩ := h'; exact hregs
  | jeq r | jne r => obtain ⟨hr, rfl⟩ := h; obtain ⟨-, rfl⟩ := h'; simp [hregs]
  | cmp a b => obtain ⟨ha, hb, rfl⟩ := h; obtain ⟨-, -, rfl⟩ := h'; exact hregs
  | ret | hlt => obtain rfl : t = _ := h; obtain rfl : t' = _ := h'; exact hregs

/-- A register the instruction does not read takes no part in its effect (10_state.md R21). -/
theorem Completed.setReg_unread {i : Instr} {s t : State} (h : Completed i s t) {k : RegIdx}
    (hk : ∀ b ∈ sources s.fl i, b.toNat ≠ k.val) (v : Byte) :
    Completed i (s.setReg k v) (if (destination i).map BitVec.toNat = some k.val then t else t.setReg k v) := by
  have hne {b : Byte} (hb : b.toNat < 8) (hmem : b ∈ sources s.fl i) : (⟨b.toNat, hb⟩ : RegIdx) ≠ k :=
    fun e => hk b hmem (congrArg Fin.val e)
  cases i with
  | ldi r imm | pop r =>
    obtain ⟨hr, rfl⟩ := h
    refine ⟨hr, ?_⟩
    by_cases e : (⟨r.toNat, hr⟩ : RegIdx) = k
    · subst e
      simp [destination, State.setReg_setReg_same]
    · have e' : r.toNat ≠ k.val := Fin.val_ne_of_ne e
      simp [destination, e', State.setReg_comm _ e]
  | add a b | mult a b =>
    obtain ⟨ha, hb, rfl⟩ := h
    have hak := hne ha (by simp [sources])
    have hbk := hne hb (by simp [sources])
    have e' : a.toNat ≠ k.val := Fin.val_ne_of_ne hak
    refine ⟨ha, hb, ?_⟩
    simp [destination, e', State.setReg_comm _ hak, State.reg_setReg_ne _ hak, State.reg_setReg_ne _ hbk]
  | prn r | push r | call r | jmp r =>
    obtain ⟨hr, rfl⟩ := h
    exact ⟨hr, by simp [destination, State.reg_setReg_ne _ (hne hr (by simp [sources]))]⟩
  | jeq r | jne r =>
    obtain ⟨hr, rfl⟩ := h
    exact ⟨hr, (branch_reg_setReg_unread s v fun taken => hne hr (by simp [sources_jeq, sources_jne, taken])).symm⟩
  | cmp a b =>
    obtain ⟨ha, hb, rfl⟩ := h
    exact ⟨ha, hb, by simp [destination, State.reg_setReg_ne _ (hne ha (by simp [sources])),
      State.reg_setReg_ne _ (hne hb (by simp [sources]))]⟩
  | ret | hlt => obtain rfl : t = _ := h; simp [Completed, destination]

/-- The destination of an ill-formed instruction is no register, or one that the instruction also lists as read. -/
theorem destination_ne_of_illFormed {i : Instr} (hi : i.wellFormed = false) {f : Byte} {k : RegIdx}
    (hk : ∀ b ∈ sources f i, b.toNat ≠ k.val) : (destination i).map BitVec.toNat ≠ some k.val := by
  rw [← Bool.not_eq_true, wellFormed_iff] at hi
  intro hd
  obtain ⟨a, hda, ha⟩ := Option.map_eq_some_iff.mp hd
  cases i <;> simp only [destination, Option.some.injEq, reduceCtorEq] at hda <;> subst hda
  case ldi r _ | pop r => exact hi (by simp [Instr.registerOperands, ha])
  case add a c | mult a c => exact hk a (by simp [sources]) ha

/-! ## A register that an instruction writes or reads shows in some state -/

/-- The reset state with `v` in every register and `f` in `fl`. -/
def uniform (v f : Byte) : State := { State.reset with regs := Vector.replicate 8 v, fl := f }

@[simp] theorem uniform_reg (v f : Byte) (k : RegIdx) : (uniform v f).reg k = v := by simp [uniform, State.reg]
@[simp] theorem uniform_fl (v f : Byte) : (uniform v f).fl = f := rfl
@[simp] theorem uniform_stackTop (v f : Byte) : (uniform v f).stackTop = 0#8 := rfl

/-- Each destination changes in some state (10_state.md R21). -/
theorem exists_completed_destination_ne {i : Instr} (hi : i.wellFormed = true) {b : Byte} (hb : b.toNat < 8)
    (hd : destination i = some b) : ∃ s t, Completed i s t ∧ t.reg ⟨b.toNat, hb⟩ ≠ s.reg ⟨b.toNat, hb⟩ := by
  have hops := wellFormed_iff.mp hi
  cases i <;> simp only [destination, Option.some.injEq, reduceCtorEq] at hd <;> subst hd
  case ldi r imm => exact ⟨uniform (imm + 1#8) 0#8, _, ⟨hb, rfl⟩, by simp⟩
  case add a c => exact ⟨uniform 1#8 0#8, _, ⟨hb, hops c (by simp [Instr.registerOperands]), rfl⟩, by simp [aluAdd]⟩
  case mult a c => exact ⟨uniform 2#8 0#8, _, ⟨hb, hops c (by simp [Instr.registerOperands]), rfl⟩, by simp [aluMult]⟩
  case pop r => exact ⟨uniform 1#8 0#8, _, ⟨hb, rfl⟩, by simp⟩

/-- An observation `g` tells what exec answers from another state `u`. -/
theorem exec_ne_of_observed {α : Type} (g : State → α) {i : Instr} {s t u : State} (h : Completed i s t)
    (hne : g t ≠ g u) : exec i s ≠ .next u := by
  rw [exec_of_completed h]
  exact fun e => hne (congrArg g (Host.Outcome.next.inj e))

/-- A write to another register than the destination leaves the destination alone. -/
theorem reg_ite_setReg {a b : Byte} (ha : a.toNat < 8) (hb : b.toNat < 8) (t : State) (v : Byte) :
    (if a = b then t else t.setReg ⟨b.toNat, hb⟩ v).reg ⟨a.toNat, ha⟩ = t.reg ⟨a.toNat, ha⟩ := by
  split
  · rfl
  · next h => exact t.reg_setReg_ne (by simpa [← BitVec.toNat_inj] using h) v

/-- A function of two registers that tells 2 from 1 in each place, and in both at once where the two are one register,
tells the `uniform` state from the one with 2 in a register it takes. -/
theorem binary_uniform_setReg_ne {β : Type} (op : Byte → Byte → β) (f : Byte) {i j k : RegIdx} (hk : k = i ∨ k = j)
    (h21 : op 2#8 1#8 ≠ op 1#8 1#8) (h12 : op 1#8 2#8 ≠ op 1#8 1#8) (h22 : i = j → op 2#8 2#8 ≠ op 1#8 1#8) :
    op (((uniform 1#8 f).setReg k 2#8).reg i) (((uniform 1#8 f).setReg k 2#8).reg j) ≠ op 1#8 1#8 := by
  simp only [State.reg_setReg, uniform_reg]
  rcases hk with rfl | rfl
  · by_cases h : k = j
    · simpa [← h] using h22 h
    · simpa [Ne.symm h] using h21
  · by_cases h : i = k
    · simpa [h] using h22 h
    · simpa [h] using h12

/-- Each register that an instruction reads, under `fl = f`, changes its effect: 2 for 1 in that register, from the
state with 1 in all of them (10_state.md R21). -/
theorem exists_completed_source_ne {f : Byte} {i : Instr} (hi : i.wellFormed = true) {b : Byte} (hb : b.toNat < 8)
    (hs : b ∈ sources f i) (hcmp : i ≠ .cmp b b) :
    ∃ t, Completed i (uniform 1#8 f) t ∧ exec i ((uniform 1#8 f).setReg ⟨b.toNat, hb⟩ 2#8) ≠
      .next (if destination i = some b then t else t.setReg ⟨b.toNat, hb⟩ 2#8) := by
  have hops := wellFormed_iff.mp hi
  have two {a c : Byte} (ha : a.toNat < 8) (hc : c.toNat < 8) (h : b ∈ [a, c]) :
      (⟨b.toNat, hb⟩ : RegIdx) = ⟨a.toNat, ha⟩ ∨ (⟨b.toNat, hb⟩ : RegIdx) = ⟨c.toNat, hc⟩ := by
    simpa [← BitVec.toNat_inj] using h
  cases i with
  | ldi r imm | pop r | ret | hlt => exact absurd hs List.not_mem_nil
  | prn r =>
    cases List.mem_singleton.mp hs
    exact ⟨_, ⟨hb, rfl⟩, exec_ne_of_observed State.out ⟨hb, rfl⟩ (by simp [destination])⟩
  | push r =>
    cases List.mem_singleton.mp hs
    exact ⟨_, ⟨hb, rfl⟩, exec_ne_of_observed State.stackTop ⟨hb, rfl⟩ (by simp [destination])⟩
  | call r | jmp r =>
    cases List.mem_singleton.mp hs
    exact ⟨_, ⟨hb, rfl⟩, exec_ne_of_observed State.pc ⟨hb, rfl⟩ (by simp [destination])⟩
  | jeq r =>
    obtain ⟨htaken, rfl⟩ : equalSet f = true ∧ b = r := by simpa [sources_jeq] using hs
    exact ⟨_, ⟨hb, rfl⟩, exec_ne_of_observed State.pc ⟨hb, rfl⟩ (by simp [destination, branch, htaken])⟩
  | jne r =>
    obtain ⟨htaken, rfl⟩ : greaterOrLessSet f = true ∧ b = r := by simpa [sources_jne] using hs
    exact ⟨_, ⟨hb, rfl⟩, exec_ne_of_observed State.pc ⟨hb, rfl⟩ (by simp [destination, branch, htaken])⟩
  | add a c =>
    have ha := hops a (by simp [Instr.registerOperands])
    have hc := hops c (by simp [Instr.registerOperands])
    refine ⟨_, ⟨ha, hc, rfl⟩, exec_ne_of_observed (·.reg ⟨a.toNat, ha⟩) ⟨ha, hc, rfl⟩ ?_⟩
    simpa [destination, reg_ite_setReg] using
      binary_uniform_setReg_ne aluAdd f (two ha hc hs) (by decide) (by decide) fun _ => by decide
  | mult a c =>
    have ha := hops a (by simp [Instr.registerOperands])
    have hc := hops c (by simp [Instr.registerOperands])
    refine ⟨_, ⟨ha, hc, rfl⟩, exec_ne_of_observed (·.reg ⟨a.toNat, ha⟩) ⟨ha, hc, rfl⟩ ?_⟩
    simpa [destination, reg_ite_setReg] using
      binary_uniform_setReg_ne aluMult f (two ha hc hs) (by decide) (by decide) fun _ => by decide
  | cmp a c =>
    have ha := hops a (by simp [Instr.registerOperands])
    have hc := hops c (by simp [Instr.registerOperands])
    refine ⟨_, ⟨ha, hc, rfl⟩, exec_ne_of_observed State.fl ⟨ha, hc, rfl⟩ ?_⟩
    have hac : a ≠ c := by
      rintro rfl
      exact hcmp (by rw [show b = a by simpa [sources] using hs])
    simpa [destination] using binary_uniform_setReg_ne compareFlags f (two ha hc hs) (by decide) (by decide)
      fun e => absurd (BitVec.eq_of_toNat_eq (Fin.mk.inj e)) hac

/-! ## The statements -/

/-- Settles O32: a well-formed instruction by the table of its completed effect, an ill-formed one because it changes
nothing but `run`; that each listed register is written or read is shown from states with one value in all registers. -/
theorem registerFileReadsAndWrites : Obligations.RegisterFileReadsAndWrites := by
  unfold Obligations.RegisterFileReadsAndWrites
  refine ⟨fun s k j v => s.reg_setReg k j v, fun i s t h k hk => ?_, fun i s t h k v hk => ?_,
    fun i s t hi h => ?_, fun i b hb hi hd => ?_, fun f i b hb hi hs hcmp => ?_⟩
  · rcases exec_next h with hc | ⟨c, -, -, rfl⟩
    · exact hc.reg_eq hk
    · rfl
  · cases hi : i.wellFormed with
    | true => exact exec_of_completed ((completed_of_wellFormed hi h).setReg_unread hk v)
    | false =>
      obtain ⟨c, rfl, hall⟩ := exec_illFormed_next hi h
      rw [if_neg (destination_ne_of_illFormed hi hk)]
      exact hall _
  · obtain ⟨c, rfl, hall⟩ := exec_illFormed_next hi h
    exact ⟨fun k => rfl, fun k v => hall _⟩
  · obtain ⟨s, t, hc, hne⟩ := exists_completed_destination_ne hi hb hd
    exact ⟨s, t, exec_of_completed hc, hne⟩
  · obtain ⟨t, hc, hne⟩ := exists_completed_source_ne hi hb hs hcmp
    exact ⟨_, t, _, rfl, exec_of_completed hc, hne⟩

/-- Settles O33: the completed effect gives the move of `sp`, a fault keeps it, and the registers an instruction leaves
depend on the registers and the byte at `sp` only. -/
theorem stackPointerMoves : Obligations.StackPointerMoves := by
  unfold Obligations.StackPointerMoves
  refine ⟨rfl, rfl, fun i s hi => ?_, fun i s t hi h => ?_, fun o s t b hf h => ?_, fun r s t hr h => ?_,
    fun r s t hr h => ?_, fun i s t p h hp => ?_⟩
  · obtain ⟨t, hc⟩ := exists_completed hi s
    exact ⟨t, exec_of_completed hc, hc.sp_eq, hc.run_eq⟩
  · obtain ⟨c, rfl, -⟩ := exec_illFormed_next hi h
    rfl
  · rcases stepWith_next h with ⟨-, ⟨i, hi, -⟩ | ⟨c, -, rfl⟩⟩
    · simp [hf] at hi
    · rfl
  · cases (exec_push_legal s hr).symm.trans h
    exact s.stackTop_push _
  · cases (exec_call_legal s hr).symm.trans h
    exact (congrArg BitVec.toNat (s.stackTop_push _)).trans (BitVec.toNat_add ..)
  · cases hi : i.wellFormed with
    | true =>
      obtain ⟨t', hc'⟩ := exists_completed hi { s with sp := p }
      have hregs := (completed_of_wellFormed hi h).regs_congr hc' rfl hp
      exact ⟨t', exec_of_completed hc', fun k => by rw [State.reg, hregs, State.reg]⟩
    | false =>
      obtain ⟨c, rfl, hall⟩ := exec_illFormed_next hi h
      exact ⟨_, hall _, fun k => rfl⟩

end Sys2Proof.Machine
end

section
/-! SUPPORT. The family 20_memory.md: reads and writes of one cell, and what a fetch reads after a push. -/

namespace Sys2Proof.Machine

/-! ## One cell -/

/-- A read of memory takes its address mod 256 (20_memory.md R51). -/
theorem Memory.read_mod (m : Memory) (a : Nat) : Memory.read m (a % 256) = Memory.read m a :=
  congrArg (Memory.lookupCell m) (Nat.mod_mod a 256)

/-- A read of memory after a write (20_memory.md R51). -/
theorem Memory.read_write (m : Memory) (a b : Nat) (v : Byte) :
    Memory.read (Memory.write m a v) b = if b % 256 = a % 256 then v else Memory.read m b := by
  split
  · next h => exact Memory.read_write_same m v h
  · next h => exact Memory.read_write_ne m v h

/-! ## Fetching after a push -/

/-- The return address of CALL, as a number mod 256 (43_control_transfer.md R140). -/
theorem State.pc_add_two (s : State) : s.pc + 2#8 = BitVec.ofNat 8 ((s.pc.toNat + 2) % 256) :=
  BitVec.eq_of_toNat_eq (by simp [BitVec.toNat_add])

/-- A fetch from any `pc` after a push reads the pushed byte in the cell below the old top, and every other cell as
before the push: instructions and the stack share one memory (20_memory.md R60). -/
theorem State.instrByte_setPc_push (s : State) (v : Byte) (p : Addr) (k : Nat) :
    ((s.push v).setPc p).instrByte k =
      if (p.toNat + k) % 256 = (s.sp.toNat + 255) % 256 then v else (s.setPc p).instrByte k := by
  rw [← s.pushAddr_toNat]
  exact s.memRead_push v (p.toNat + k)

/-- A push onto a byte of the instruction at `pc` is what is fetched there next (70_reset_and_hazards.md R198). -/
theorem State.instrByte_setPc_push_self (s : State) (v : Byte) {k : Nat}
    (h : (s.sp.toNat + 255) % 256 = (s.pc.toNat + k) % 256) : ((s.push v).setPc s.pc).instrByte k = v := by
  rw [s.instrByte_setPc_push v s.pc k, if_pos h.symm]

/-! ## The statements -/

/-- Settles O41, by the read-after-write law of memory; a state's write replaces its memory and no other field. -/
theorem memoryPrimitives : Obligations.MemoryPrimitives := by
  unfold Obligations.MemoryPrimitives
  exact ⟨fun m a => (Memory.read_mod m a).symm, Memory.read_write, fun s a b v => ⟨s.memRead_memWrite a b v, rfl⟩⟩

/-- Settles O45: PUSH and CALL leave the memory of a push, which a fetch from any `pc` reads; a step fetches the whole
instruction before its push (D7), so one that overwrites itself has the effect of the instruction as fetched. -/
theorem storedBytesAreFetched : Obligations.StoredBytesAreFetched := by
  unfold Obligations.StoredBytesAreFetched
  refine ⟨fun r s hr => ⟨_, exec_push_legal s hr, s.instrByte_setPc_push _⟩, fun r s hr => ?_,
    fun o r s hr hrun hf k _ hself => ?_, fun o r s hr hrun hf k _ hself => ?_⟩
  · rw [← s.pc_add_two]
    exact ⟨_, exec_call_legal s hr, s.instrByte_setPc_push _⟩
  · have hstep := (stepWith_instr hrun hf).trans (exec_push_legal s hr)
    exact ⟨_, hstep, s.instrByte_setPc_push_self _ hself, rfl, fun _ => rfl, BitVec.toNat_add ..⟩
  · have hstep := (stepWith_instr hrun hf).trans (exec_call_legal s hr)
    have hfetched := s.instrByte_setPc_push_self (s.pc + 2#8) hself
    exact ⟨_, hstep, (congrArg BitVec.toNat hfetched).trans (BitVec.toNat_add ..), rfl, fun _ => rfl, rfl⟩

end Sys2Proof.Machine
end

section
/-! SUPPORT. The family 30_encoding.md: what decoding answers, what a fetch reads, and what a completed instruction
does to `pc`. -/

namespace Sys2Proof

/-! ## What decoding answers -/

/-- What decodes is the selected mnemonic with the two bytes after the opcode (30_encoding.md R81, R84). -/
theorem decodeWith_eq_instr_iff {o : OpcodeMap} {opcode op1 op2 : Byte} {i : Instr} :
    decodeWith o opcode op1 op2 = .instr i ↔ ∃ m, lookup o opcode = some m ∧ assemble m op1 op2 = i := by
  unfold decodeWith
  cases lookup o opcode <;> simp

/-- What does not decode is rejected by its opcode byte, which is no opcode value (30_encoding.md R86). -/
theorem decodeWith_eq_unsupported_iff {o : OpcodeMap} {opcode op1 op2 b : Byte} :
    decodeWith o opcode op1 op2 = .unsupported b ↔ (∀ m, o m ≠ opcode) ∧ opcode = b := by
  rw [← lookup_none, decodeWith]
  cases lookup o opcode <;> simp

/-- Bytes beyond an instruction's length take no part in it (30_encoding.md R88). -/
theorem assemble_beyond_length (m : Mnemonic) (op1 op2 x y : Byte) :
    assemble m (if 2 ≤ lengthOf m then op1 else x) (if 3 ≤ lengthOf m then op2 else y) = assemble m op1 op2 := by
  cases m <;> rfl

/-! ## The bytes of an instruction -/

open Laws.EncodeLength in
/-- The encoding has the length the opcode gives (30_encoding.md R88). -/
theorem encodeWith_length (o : OpcodeMap) : ∀ i : Instr, (encodeWith o i).length = lengthOf i.mnemonic
  | .ldi r imm => ldi r imm o
  | .prn r => prn r o
  | .add a b => add a b o
  | .mult a b => mult a b o
  | .push r => push r o
  | .pop r => pop r o
  | .call r => call r o
  | .ret => ret o
  | .jmp r => jmp r o
  | .jeq r => jeq r o
  | .jne r => jne r o
  | .cmp a b => cmp a b o
  | .hlt => hlt o

/-- The register operands are the operand bytes as they stand, but for the immediate of LDI (30_encoding.md R84). -/
theorem registerOperands_eq_take (i : Instr) :
    i.registerOperands = (operandBytes i).take (if i.mnemonic = .ldi then 1 else 2) := by
  cases i <;> rfl

end Sys2Proof

namespace Sys2Proof.Machine

/-! ## Fetching -/

/-- A write to another cell leaves a byte of the instruction alone (20_memory.md R51). -/
theorem State.instrByte_memWrite_ne (s : State) {a k : Nat} (v : Byte) (h : a % 256 ≠ (s.pc.toNat + k) % 256) :
    (s.memWrite a v).instrByte k = s.instrByte k :=
  (s.memRead_memWrite a _ v).trans (if_neg h.symm)

/-- The operand bytes of a fetched instruction follow its opcode, as many as its length says (30_encoding.md R84). -/
theorem operandBytes_of_fetch {o : OpcodeMap} {s : State} {i : Instr} (h : fetch o s = .instr i) :
    operandBytes i = [s.instrByte 1, s.instrByte 2].take (lengthOf i.mnemonic - 1) := by
  obtain ⟨m, -, rfl⟩ := decodeWith_eq_instr_iff.mp h
  rw [operandBytes_assemble, mnemonic_assemble]

/-- A step on an unsupported opcode changes nothing but `run` (60_exceptions.md R171). -/
theorem stepWith_unsupported_next {o : OpcodeMap} {s t : State} {b : Byte} (hf : fetch o s = .unsupported b)
    (h : stepWith o s = .next t) : t = s.setRun (.faulted .unsupportedInstruction b s.pc) := by
  rw [stepWith_unsupported (stepWith_next h).1 hf] at h
  exact (Host.Outcome.next.inj h).symm

/-! ## What a completed instruction does to `pc` -/

/-- The 8-bit sum that `advance` puts in `pc` is the sum mod 256 (10_state.md R23). -/
theorem pcAdvances_of_pc_eq {s t : State} {n : Nat} (h : t.pc = s.pc + BitVec.ofNat 8 n) : pcAdvances n s t := by
  simp [pcAdvances, h, BitVec.toNat_add]

/-- An instruction that transfers no control adds its length to `pc` (30_encoding.md R88). -/
theorem Completed.pcAdvances_length {i : Instr} {s t : State} (h : Completed i s t)
    (hi : i.mnemonic ∉ [Mnemonic.call, .ret, .jmp, .jeq, .jne]) : pcAdvances (lengthOf i.mnemonic) s t := by
  cases i with
  | ldi r _ | prn r | push r | pop r => obtain ⟨hr, rfl⟩ := h; exact pcAdvances_of_pc_eq rfl
  | add a b | mult a b | cmp a b => obtain ⟨ha, hb, rfl⟩ := h; exact pcAdvances_of_pc_eq rfl
  | hlt => obtain rfl : t = _ := h; exact pcAdvances_of_pc_eq rfl
  | call r | ret | jmp r | jeq r | jne r => simp [Instr.mnemonic] at hi

/-- A conditional jump goes to its target when taken, else to `pc + 2` (43_control_transfer.md R143, R144). -/
theorem branch_pc (s : State) (taken : Bool) (target : Addr) :
    if taken then (branch taken target s).pc = target else pcAdvances 2 s (branch taken target s) := by
  cases taken with
  | true => rfl
  | false => exact pcAdvances_of_pc_eq rfl

/-! ## The arithmetic unit in terms of 8-bit words -/

/-- ADD's result is the sum of 8-bit words (41_arithmetic.md R120). -/
theorem aluAdd_eq (u v : Byte) : aluAdd u v = u + v := by
  simp [aluAdd, BitVec.ofNat_add]

/-- MULT's result is the product of 8-bit words (41_arithmetic.md R121). -/
theorem aluMult_eq (u v : Byte) : aluMult u v = u * v := by
  simp [aluMult, BitVec.ofNat_mul]

/-! ## The statements -/

/-- Settles O24: decoding depends on the operand bytes through `assemble` only, an unsupported opcode leaves `pc` and
is rejected by the one byte at `pc`, and the completed effect gives the advance of `pc`. -/
theorem lengthFollowsFromOpcode : Obligations.LengthFollowsFromOpcode := by
  unfold Obligations.LengthFollowsFromOpcode
  refine ⟨fun m => ?_, encodeWith_length, fun o opcode op1 op2 x y i h => ?_, fun o s t b hf h => ?_,
    fun o s b a v hf ha => ?_, fun i s t hi h hm => ?_⟩
  · cases m <;> rfl
  · obtain ⟨m, hm, rfl⟩ := decodeWith_eq_instr_iff.mp h
    rw [mnemonic_assemble]
    exact decodeWith_eq_instr_iff.mpr ⟨m, hm, assemble_beyond_length m op1 op2 x y⟩
  · obtain rfl := stepWith_unsupported_next hf h
    rfl
  · have hpc : s.pc.toNat % 256 = s.pc.toNat := Nat.mod_eq_of_lt s.pc.isLt
    have hkeep : (s.memWrite a v).instrByte 0 = s.instrByte 0 :=
      s.instrByte_memWrite_ne v (by rwa [Nat.add_zero, hpc])
    rw [fetch, decodeWith_eq_unsupported_iff] at hf ⊢
    rwa [hkeep]
  · exact (completed_of_wellFormed hi h).pcAdvances_length hm

/-- Settles O23: an injective map makes an opcode value select its own mnemonic, and a fetch is the decoding of the
three bytes from `pc` on. -/
theorem opcodeByteAloneSelects : Obligations.OpcodeByteAloneSelects := by
  unfold Obligations.OpcodeByteAloneSelects
  refine ⟨fun o ho m op1 op2 => ?_, fun o opcode op1 op2 h => ?_, fun o s t h => fetch_congr o h⟩
  · exact ⟨_, decodeWith_eq_instr_iff.mpr ⟨m, lookup_opcode ho m, rfl⟩, mnemonic_assemble m op1 op2⟩
  · exact decodeWith_eq_unsupported_iff.mpr ⟨h, rfl⟩

/-- Settles O25: the operand bytes by what a fetch answers, the use of each register by what exec answers for operands
in range. -/
theorem operandBytesFollowOpcode : Obligations.OperandBytesFollowOpcode := by
  unfold Obligations.OperandBytesFollowOpcode
  refine ⟨fun o s i h => ?_, registerOperands_eq_take, fun r imm s hr => ?_,
    fun r s hr => ⟨?prn, ?push, ?pop, ?call, ?jmp, ?jeq, ?jne⟩, fun a b s ha hb => ⟨?add, ?mult, ?cmp⟩⟩
  · rw [s.memRead_mod, s.memRead_mod]
    exact operandBytes_of_fetch h
  · exact ⟨_, exec_ldi_legal s hr imm, s.reg_setReg_same _ imm⟩
  case prn => exact ⟨_, exec_prn_legal s hr, rfl⟩
  case push => exact ⟨_, exec_push_legal s hr, s.stackTop_push _⟩
  case pop => exact ⟨_, exec_pop_legal s hr, s.reg_setReg_same _ _⟩
  case call => exact ⟨_, exec_call_legal s hr, rfl⟩
  case jmp => exact ⟨_, exec_jmp_legal s hr, rfl⟩
  case jeq =>
    rw [← equalSet_eq_bit]
    exact ⟨_, exec_jeq_legal s hr, branch_pc s _ _⟩
  case jne =>
    rw [← greaterOrLessSet_eq_bits]
    exact ⟨_, exec_jne_legal s hr, branch_pc s _ _⟩
  case add => exact ⟨_, exec_add_legal s ha hb, (s.reg_setReg_same _ _).trans (aluAdd_eq _ _)⟩
  case mult => exact ⟨_, exec_mult_legal s ha hb, (s.reg_setReg_same _ _).trans (aluMult_eq _ _)⟩
  case cmp => exact ⟨_, exec_cmp_legal s ha hb, rfl⟩

end Sys2Proof.Machine
end

section
/-! SUPPORT. The family 40_data_movement.md: LDI and PRN, and the fault of an instruction with one register operand. -/

namespace Sys2Proof.Machine

/-! ## The fault on a register operand above 7 -/

/-- An instruction with one register operand reports that byte when it is above 7, whatever it would do next
(60_exceptions.md R172; D5, D6). -/
theorem raisesIndexFault_of_registerOperands_eq {i : Instr} {b : Byte} (hi : i.registerOperands = [b])
    (hb : 7 < b.toNat) (s : State) : raisesIndexFault i b s := by
  have fault (k : RegIdx → Host.Outcome State Fault Refusal) :
      withReg b s k = .next { s with run := .faulted .invalidRegisterIndex b s.pc } :=
    withReg_illegal (Nat.not_lt.mpr hb) s k
  cases i <;> cases hi
  case ldi | prn | push | pop | call | jmp | jeq | jne =>
    simp only [raisesIndexFault, exec, execLdi, execPrn, execPush, execPop, execCall, execJmp, execJeq, execJne, fault]

/-! ## The output text -/

/-- The text of an output stream grows by the line of the byte appended (10_state.md R29, D10). -/
theorem State.outText_of_out_append {s t : State} {v : Byte} (h : t.out = s.out ++ [v]) :
    t.outText = s.outText ++ decimalLine v := by
  simp [State.outText, h]

/-! ## The statements -/

/-- Settles O1: LDI in range is one register write and an advance, whose effect on each piece of state is a law of the
register file or holds by definition. -/
theorem ldiLoadsImmediate : Obligations.LdiLoadsImmediate := by
  unfold Obligations.LdiLoadsImmediate
  refine ⟨fun r imm s hr => ⟨_, exec_ldi_legal s hr imm, ?reg, ?otherRegs, ?pc, rfl, rfl, fun _ => rfl, rfl, rfl⟩,
    fun r imm s hr => raisesIndexFault_of_registerOperands_eq rfl hr s⟩
  case reg => exact s.reg_setReg_same _ imm
  case otherRegs => exact fun k hk => s.reg_setReg_ne hk imm
  case pc => exact pcAdvances_of_pc_eq rfl

/-- Settles O2: PRN in range is one `emit` and an advance, so only `out`, its text and `pc` have anything to show. -/
theorem prnAppendsRegister : Obligations.PrnAppendsRegister := by
  unfold Obligations.PrnAppendsRegister
  refine ⟨fun r s hr => ⟨_, exec_prn_legal s hr, rfl, ?text, fun _ => rfl, ?pc, rfl, rfl, fun _ => rfl, rfl⟩,
    fun r s hr => raisesIndexFault_of_registerOperands_eq rfl hr s⟩
  case text => exact State.outText_of_out_append rfl
  case pc => exact pcAdvances_of_pc_eq rfl

end Sys2Proof.Machine
end

section
/-! SUPPORT. The family 41_arithmetic.md: ADD and MULT, and the fault of an instruction with two register operands. -/

namespace Sys2Proof.Machine

/-! ## The results as numbers -/

/-- ADD's result is the sum mod 256 (41_arithmetic.md R120). -/
theorem aluAdd_toNat (u v : Byte) : (aluAdd u v).toNat = (u.toNat + v.toNat) % 256 :=
  BitVec.toNat_ofNat ..

/-- MULT's result is the product mod 256 (41_arithmetic.md R121). -/
theorem aluMult_toNat (u v : Byte) : (aluMult u v).toNat = (u.toNat * v.toNat) % 256 :=
  BitVec.toNat_ofNat ..

/-! ## The frame of one register write -/

/-- An instruction whose effect is one register write and an advance of `pc` changes nothing else
(41_arithmetic.md R120, R121). -/
theorem State.setReg_advance_frame (s : State) (k : RegIdx) (v : Byte) (n : Nat) :
    let t := (s.setReg k v).advance n
    keepsRegsBut k s t ∧ pcAdvances n s t ∧ t.sp = s.sp ∧ t.fl = s.fl ∧ keepsMemory s t ∧ t.run = s.run ∧
      t.out = s.out :=
  ⟨fun _ hj => s.reg_setReg_ne hj v, pcAdvances_of_pc_eq rfl, rfl, rfl, fun _ => rfl, rfl, rfl⟩

/-! ## The fault on one of two register operands above 7 -/

/-- An instruction with two register operands checks both before anything else, so what `withRegs` raises is its
answer (30_encoding.md R85). -/
theorem raisesIndexFault_of_withRegs {i : Instr} {a b c : Byte} {s : State} (hi : i.registerOperands = [a, b])
    (h : ∀ k, withRegs a b s k = raise .invalidRegisterIndex c s) : raisesIndexFault i c s := by
  cases i <;> cases hi
  case add | mult | cmp => simp only [raisesIndexFault, exec, execAdd, execMult, execCmp, h, raise, State.setRun]

/-- A first register operand above 7 is reported, whatever the second is (60_exceptions.md R172, R174; D5, D6). -/
theorem raisesIndexFault_first {i : Instr} {a b : Byte} (hi : i.registerOperands = [a, b]) (ha : 7 < a.toNat)
    (s : State) : raisesIndexFault i a s :=
  raisesIndexFault_of_withRegs hi (withRegs_illegal_first (Nat.not_lt.mpr ha) s)

/-- A second register operand above 7 is reported when the first is in range (60_exceptions.md R172, R174; D5, D6). -/
theorem raisesIndexFault_second {i : Instr} {a b : Byte} (hi : i.registerOperands = [a, b]) (ha : a.toNat < 8)
    (hb : 7 < b.toNat) (s : State) : raisesIndexFault i b s :=
  raisesIndexFault_of_withRegs hi (withRegs_illegal_second ha (Nat.not_lt.mpr hb) s)

/-! ## The statements -/

/-- Settles O3: ADD in range is one register write, whose byte is the sum mod 256, and an advance. -/
theorem addWrapsIntoFirstRegister : Obligations.AddWrapsIntoFirstRegister := by
  unfold Obligations.AddWrapsIntoFirstRegister
  refine ⟨fun a b s ha hb => ⟨_, exec_add_legal s ha hb, ?sum, s.setReg_advance_frame _ _ 3⟩,
    fun a b s ha => raisesIndexFault_first rfl ha s, fun a b s ha hb => raisesIndexFault_second rfl ha hb s⟩
  case sum => exact (congrArg BitVec.toNat (s.reg_setReg_same _ _)).trans (aluAdd_toNat _ _)

/-- Settles O4: MULT in range is one register write, whose byte is the product mod 256, and an advance. -/
theorem multWrapsIntoFirstRegister : Obligations.MultWrapsIntoFirstRegister := by
  unfold Obligations.MultWrapsIntoFirstRegister
  refine ⟨fun a b s ha hb => ⟨_, exec_mult_legal s ha hb, ?product, s.setReg_advance_frame _ _ 3⟩,
    fun a b s ha => raisesIndexFault_first rfl ha s, fun a b s ha hb => raisesIndexFault_second rfl ha hb s⟩
  case product => exact (congrArg BitVec.toNat (s.reg_setReg_same _ _)).trans (aluMult_toNat _ _)

end Sys2Proof.Machine
end

section
/-! SUPPORT. The family 42_stack.md: PUSH and POP, the byte under a pushed one, and the bytes of the next instruction
after a push. -/

namespace Sys2Proof.Machine

/-! ## A push and a drop -/

/-- A push changes no other cell than the one below the old top (42_stack.md R130). -/
theorem State.push_keepsMemoryBut (s : State) (v : Byte) : keepsMemoryBut s.pushAddr s (s.push v) :=
  fun a ha => (s.memRead_push v a).trans (if_neg ha)

/-- A push does not write the cell of the old top (42_stack.md R130). -/
theorem State.sp_ne_pushAddr (s : State) : s.sp.toNat ≠ s.pushAddr.toNat := by
  rw [s.pushAddr_toNat]
  omega

/-- Dropping a pushed byte uncovers the old top: the stack is last-in first-out (10_state.md R24). -/
@[simp] theorem State.stackTop_dropTop_push (s : State) (v : Byte) : (s.push v).dropTop.stackTop = s.stackTop := by
  have hkept : (s.push v).memRead s.sp.toNat = s.memRead s.sp.toNat :=
    s.push_keepsMemoryBut v _ (by rw [Nat.mod_eq_of_lt s.sp.isLt]; exact s.sp_ne_pushAddr)
  simpa [State.stackTop] using hkept

/-! ## Fetching the instruction after a PUSH -/

/-- The instruction bytes after an advance are those `n` further on (30_encoding.md R91). -/
theorem State.instrByte_advance (s : State) (n k : Nat) : (s.advance n).instrByte k = s.instrByte (n + k) := by
  rw [State.instrByte, State.instrByte, ← State.memRead_mod, ← s.memRead_mod]
  simp [BitVec.toNat_add, Nat.add_assoc]

/-- A push that misses a byte ahead of `pc` leaves it as it was for a later fetch (42_stack.md R132). -/
theorem State.instrByte_push_advance (s : State) (v : Byte) (n k : Nat)
    (h : s.pushAddr.toNat ≠ (s.pc.toNat + (n + k)) % 256) :
    ((s.push v).advance n).instrByte k = s.instrByte (n + k) :=
  ((s.push v).instrByte_advance n k).trans (s.push_keepsMemoryBut v _ h.symm)

/-- An opcode value at `pc` and the byte after it fetch their instruction (30_encoding.md R87). -/
theorem fetch_of_instrBytes {o : OpcodeMap} (ho : Function.Injective o) {s : State} {m : Mnemonic} {r : Byte}
    (hop : s.instrByte 0 = o m) (hr : s.instrByte 1 = r) : fetch o s = .instr (assemble m r (s.instrByte 2)) :=
  decodeWith_eq_instr_iff.mpr ⟨m, hop ▸ lookup_opcode ho m, by rw [hr]⟩

/-! ## The statements -/

/-- Settles O47: the PUSH leaves the two bytes of the POP to fetch, the POP takes the byte just pushed, and after a
second push and pop the byte under it is on top again. -/
theorem pushThenPopRoundTrip : Obligations.PushThenPopRoundTrip := by
  unfold Obligations.PushThenPopRoundTrip
  refine ⟨fun o ho r r2 s hr hr2 hrun hbytes hop hreg => ?_, fun r1 r2 r3 r4 s hr1 hr2 hr3 hr4 => ?_⟩
  · have hpush : fetch o s = .instr (.push r) :=
      fetch_of_instrBytes ho (hbytes 0 (by decide)) (hbytes 1 (by decide))
    have hpop : fetch o ((s.push (s.reg ⟨r.toNat, hr⟩)).advance 2) = .instr (.pop r2) :=
      fetch_of_instrBytes ho ((s.instrByte_push_advance _ 2 0 hop).trans (hbytes 2 (by decide)))
        ((s.instrByte_push_advance _ 2 1 hreg).trans (hbytes 3 (by decide)))
    have hstepPush := (stepWith_instr hrun hpush).trans (exec_push_legal s hr)
    have hstepPop := (stepWith_instr (s := (s.push _).advance 2) hrun hpop).trans (exec_pop_legal _ hr2)
    refine ⟨_, _, hstepPush, hstepPop, s.pushAddr_toNat, s.stackTop_push _, ?popped, ?sp, ?otherRegs, ?otherCells⟩
    case popped => exact (State.reg_setReg_same _ _ _).trans (s.stackTop_push _)
    case sp => exact s.pushAddr_add_one
    case otherRegs => exact fun k hk => State.reg_setReg_ne _ hk _
    case otherCells => exact s.push_keepsMemoryBut _
  · refine ⟨_, _, _, _, exec_push_legal s hr1, exec_push_legal _ hr2, exec_pop_legal _ hr3, exec_pop_legal _ hr4,
      ?second, ?first, ?sp⟩
    case second => exact (State.reg_setReg_same _ _ _).trans (State.stackTop_push _ _)
    case first =>
      have huncovered := ((s.push (s.reg ⟨r1.toNat, hr1⟩)).advance 2).stackTop_dropTop_push (s.reg ⟨r2.toNat, hr2⟩)
      exact (State.reg_setReg_same _ _ _).trans (huncovered.trans (s.stackTop_push _))
    case sp => simp

/-- Settles O5: PUSH in range is one push and an advance, and a push writes one cell and moves `sp`. -/
theorem pushStoresBelowStackTop : Obligations.PushStoresBelowStackTop := by
  unfold Obligations.PushStoresBelowStackTop
  refine ⟨fun r s hr => ⟨_, exec_push_legal s hr, s.pushAddr_toNat, rfl, ?stored, ?otherCells, fun _ => rfl, ?pc,
    rfl, rfl, rfl⟩, fun r s hr => raisesIndexFault_of_registerOperands_eq rfl hr s⟩
  case stored => exact s.stackTop_push _
  case otherCells => exact s.push_keepsMemoryBut _
  case pc => exact pcAdvances_of_pc_eq rfl

/-- Settles O6: POP in range is one register write of the stack top, a drop and an advance; none writes memory. -/
theorem popLoadsStackTop : Obligations.PopLoadsStackTop := by
  unfold Obligations.PopLoadsStackTop
  refine ⟨fun r s hr => ⟨_, exec_pop_legal s hr, ?reg, ?otherRegs, ?sp, ?pc, rfl, fun _ => rfl, rfl, rfl⟩,
    fun r s hr => raisesIndexFault_of_registerOperands_eq rfl hr s⟩
  case reg => exact s.reg_setReg_same _ _
  case otherRegs => exact fun k hk => s.reg_setReg_ne hk _
  case sp => exact BitVec.toNat_add ..
  case pc => exact pcAdvances_of_pc_eq rfl

end Sys2Proof.Machine
end

section
/-! SUPPORT. The family 43_control_transfer.md: CALL, RET, JMP, JEQ and JNE, which change `pc` and, for CALL and RET,
the stack. -/

namespace Sys2Proof.Machine

/-! ## The effect of a jump -/

/-- A write of `pc` alone changes nothing else (43_control_transfer.md R142). -/
theorem State.setPc_frame (s : State) (a : Addr) :
    let t := s.setPc a
    keepsRegs s t ∧ t.sp = s.sp ∧ t.fl = s.fl ∧ keepsMemory s t ∧ t.run = s.run ∧ t.out = s.out :=
  ⟨fun _ => rfl, rfl, rfl, fun _ => rfl, rfl, rfl⟩

/-- Taken or not, a conditional jump is a write of `pc` alone (43_control_transfer.md R143, R144). -/
theorem branch_eq_setPc (s : State) (taken : Bool) (target : Addr) :
    branch taken target s = s.setPc (if taken then target else s.pc + 2#8) := by
  cases taken <;> rfl

/-- A conditional jump goes to its target when taken and to `pc + 2` when not, and changes nothing but `pc`
(43_control_transfer.md R143, R144). -/
theorem branch_effect (s : State) (taken : Bool) (target : Addr) :
    let t := branch taken target s
    (taken = true → t.pc = target) ∧ (taken = false → pcAdvances 2 s t) ∧
      keepsRegs s t ∧ t.sp = s.sp ∧ t.fl = s.fl ∧ keepsMemory s t ∧ t.run = s.run ∧ t.out = s.out := by
  have hpc := branch_pc s taken target
  refine ⟨fun h => ?taken, fun h => ?untaken, ?frame⟩
  case taken => rwa [if_pos h] at hpc
  case untaken => rwa [if_neg (Bool.eq_false_iff.mp h)] at hpc
  case frame =>
    rw [branch_eq_setPc]
    exact s.setPc_frame _

/-! ## The statements -/

/-- Settles O7: CALL in range is a push of the return address, which writes one cell and moves `sp`, and a write of
`pc`. -/
theorem callPushesReturnAddressAndJumps : Obligations.CallPushesReturnAddressAndJumps := by
  unfold Obligations.CallPushesReturnAddressAndJumps
  refine ⟨fun r s hr => ⟨_, exec_call_legal s hr, s.pushAddr_toNat, rfl, ?returnAddress, ?otherCells, rfl,
    fun _ => rfl, rfl, rfl, rfl⟩, fun r s hr => raisesIndexFault_of_registerOperands_eq rfl hr s⟩
  case returnAddress => exact (congrArg BitVec.toNat (s.stackTop_push _)).trans (BitVec.toNat_add ..)
  case otherCells => exact s.push_keepsMemoryBut _

/-- Settles O8: RET is a write of `pc` and a drop, so only the sum in `sp` has anything to show. -/
theorem retPopsProgramCounter : Obligations.RetPopsProgramCounter := by
  unfold Obligations.RetPopsProgramCounter
  refine fun s => ⟨_, exec_ret_next s, rfl, ?sp, fun _ => rfl, rfl, fun _ => rfl, rfl, rfl⟩
  case sp => exact BitVec.toNat_add ..

/-- Settles O9: JMP in range is a write of `pc` alone. -/
theorem jmpGoesToRegister : Obligations.JmpGoesToRegister := by
  unfold Obligations.JmpGoesToRegister
  exact ⟨fun r s hr => ⟨_, exec_jmp_legal s hr, rfl, s.setPc_frame _⟩,
    fun r s hr => raisesIndexFault_of_registerOperands_eq rfl hr s⟩

/-- Settles O10: JEQ in range is a conditional jump whose test is bit 0 of `fl`, for every `fl` (D15). -/
theorem jeqTestsEqualBit : Obligations.JeqTestsEqualBit := by
  unfold Obligations.JeqTestsEqualBit
  refine ⟨fun r s hr => ?_, fun r s hr => raisesIndexFault_of_registerOperands_eq rfl hr s⟩
  rw [← equalSet_eq_bit]
  exact ⟨_, exec_jeq_legal s hr, branch_effect s _ _⟩

/-- Settles O11: JNE in range is a conditional jump whose test is bit 1 or bit 2 of `fl`, for every `fl` (D15). -/
theorem jneTestsGreaterAndLessBits : Obligations.JneTestsGreaterAndLessBits := by
  unfold Obligations.JneTestsGreaterAndLessBits
  refine ⟨fun r s hr => ?_, fun r s hr => raisesIndexFault_of_registerOperands_eq rfl hr s⟩
  rw [← greaterOrLessSet_eq_bits]
  exact ⟨_, exec_jne_legal s hr, branch_effect s _ _⟩

end Sys2Proof.Machine
end

section
/-! SUPPORT. The family 44_compare.md: CMP, the one instruction that writes `fl`. -/

namespace Sys2Proof.Machine

/-! ## The flags by the unsigned order of the operands (44_compare.md R150) -/

section
variable {u v : Byte}

theorem compareFlags_of_eq (h : u.toNat = v.toNat) : compareFlags u v = flE :=
  if_pos (BitVec.eq_of_toNat_eq h)

theorem compareFlags_of_gt (h : u.toNat > v.toNat) : compareFlags u v = flG := by
  have hne : u ≠ v := fun e => h.ne' (congrArg BitVec.toNat e)
  rw [compareFlags, if_neg hne, if_pos h]

theorem compareFlags_of_lt (h : u.toNat < v.toNat) : compareFlags u v = flL := by
  have hne : u ≠ v := fun e => h.ne (congrArg BitVec.toNat e)
  rw [compareFlags, if_neg hne, if_neg h.not_gt]

end

/-! ## The statement -/

/-- Settles O12: CMP in range is one write of `fl`, whose byte the order of the operands selects, and an advance. -/
theorem cmpSetsExactlyOneFlag : Obligations.CmpSetsExactlyOneFlag := by
  unfold Obligations.CmpSetsExactlyOneFlag
  refine ⟨fun a b s ha hb => ⟨_, exec_cmp_legal s ha hb, compareFlags_of_eq, compareFlags_of_gt, compareFlags_of_lt,
    ?pc, fun _ => rfl, rfl, fun _ => rfl, rfl, rfl⟩,
    fun a b s ha => raisesIndexFault_first rfl ha s, fun a b s ha hb => raisesIndexFault_second rfl ha hb s⟩
  case pc => exact pcAdvances_of_pc_eq rfl

end Sys2Proof.Machine
end

section
/-! SUPPORT. The family 45_halt.md: HLT, which stops the engine. -/

namespace Sys2Proof.Machine

/-- A halted engine takes no step, whatever the opcode map and whatever `pc` points at (10_state.md R28; D16). -/
theorem stepWith_halted (o : OpcodeMap) {s : State} (h : s.run = .halted) : stepWith o s = .fault .stepAfterHalt := by
  simp only [stepWith, h]

/-- Settles O13: HLT is a write of `run` and an advance, and the status it leaves is one in which no step exists. -/
theorem hltHalts : Obligations.HltHalts := by
  unfold Obligations.HltHalts
  refine fun s => ⟨_, exec_hlt_next s, rfl, ?pc, fun _ => rfl, rfl, rfl, fun _ => rfl, rfl, ?noStep⟩
  case pc => exact pcAdvances_of_pc_eq rfl
  case noStep => exact fun o => stepWith_halted o rfl

end Sys2Proof.Machine
end

section
/-! SUPPORT. Encoding and decoding are inverse, and a step runs the instruction encoded at `pc`. -/

namespace Sys2Proof

/-! ## Operand bytes and the instruction they make -/

/-- An instruction is assembled from its own operand bytes, whatever bytes follow them (30_encoding.md R80, R88). -/
theorem assemble_of_operandBytes {i : Instr} {following rest : List Byte} {op1 op2 : Byte}
    (h : operandBytes i ++ following = op1 :: op2 :: rest) : assemble i.mnemonic op1 op2 = i := by
  cases i with
  | ldi r imm | add a b | mult a b | cmp a b =>
    obtain ⟨rfl, rfl, -⟩ : _ = op1 ∧ _ = op2 ∧ following = rest := by simpa [operandBytes] using h
    rfl
  | prn r | push r | pop r | call r | jmp r | jeq r | jne r =>
    obtain ⟨rfl, -⟩ : _ = op1 ∧ following = op2 :: rest := by simpa [operandBytes] using h
    rfl
  | ret | hlt => rfl

/-- The encoding of an assembled instruction is its opcode value and as many operand bytes as its length says
(30_encoding.md R80). -/
theorem encodeWith_assemble (o : OpcodeMap) (m : Mnemonic) (op1 op2 : Byte) :
    encodeWith o (assemble m op1 op2) = [o m, op1, op2].take (lengthOf m) := by
  cases m <;> rfl

/-! ## The bytes that are no opcode value -/

/-- A map whose 13 values differ is injective. -/
theorem injective_of_nodup_opcodes {o : OpcodeMap} (h : (allMnemonics.map o).Nodup) : Function.Injective o :=
  fun m m' e => List.inj_on_of_nodup_map h (mem_allMnemonics m) (mem_allMnemonics m') e

/-- Under an injective map the bytes that select a mnemonic are the 13 opcode values (30_encoding.md R82). -/
theorem filter_supported_perm {o : OpcodeMap} (ho : Function.Injective o) :
    ((List.range 256).filter fun n => (lookup o (BitVec.ofNat 8 n)).isSome).Perm
      (allMnemonics.map fun m => (o m).toNat) := by
  have hinj : Function.Injective fun m => (o m).toNat := fun m m' e => ho (BitVec.eq_of_toNat_eq e)
  refine (List.perm_ext_iff_of_nodup (List.nodup_range.filter _) (List.Nodup.map hinj (by decide))).mpr fun n => ?_
  simp only [List.mem_filter, List.mem_range, List.mem_map]
  constructor
  · rintro ⟨hn, hsome⟩
    obtain ⟨m, hm⟩ := Option.isSome_iff_exists.mp hsome
    refine ⟨m, mem_allMnemonics m, ?_⟩
    rw [lookup_some hm, BitVec.toNat_ofNat, Nat.mod_eq_of_lt hn]
  · rintro ⟨m, -, rfl⟩
    refine ⟨(o m).isLt, ?_⟩
    rw [BitVec.ofNat_toNat, BitVec.setWidth_eq, lookup_opcode ho m]
    rfl

/-- Under an injective map 243 of the 256 bytes are unsupported (30_encoding.md R86). -/
theorem length_filter_unsupported {o : OpcodeMap} (ho : Function.Injective o) :
    ((List.range 256).filter fun n => (lookup o (BitVec.ofNat 8 n)).isNone).length = 243 := by
  have hsupported := (filter_supported_perm ho).length_eq
  have hsplit := List.length_eq_length_filter_add (l := List.range 256)
    fun n => (lookup o (BitVec.ofNat 8 n)).isSome
  simp only [Option.not_isSome] at hsplit
  rw [hsupported, List.length_range, List.length_map, show allMnemonics.length = 13 from rfl] at hsplit
  omega

/-! ## The statements -/

/-- Settles O21: the first byte selects the instruction's mnemonic because the map is injective, and the two bytes after
it begin with the instruction's operand bytes. -/
theorem decodeInvertsEncode : Obligations.DecodeInvertsEncode := by
  unfold Obligations.DecodeInvertsEncode
  intro o ho i following opcode op1 op2 rest h
  obtain ⟨hop, hoperands⟩ := List.cons.inj h
  exact decodeWith_eq_instr_iff.mpr
    ⟨i.mnemonic, hop ▸ lookup_opcode ho i.mnemonic, assemble_of_operandBytes hoperands⟩

/-- Settles O22: what decodes is assembled from the bytes given, under the opcode value they begin with; what does not
decode begins with no opcode value, and every encoding does. -/
theorem encodeInvertsDecode : Obligations.EncodeInvertsDecode := by
  unfold Obligations.EncodeInvertsDecode
  refine fun o opcode op1 op2 => ⟨fun i h => ?_, fun b h => ?_⟩
  · obtain ⟨m, hm, rfl⟩ := decodeWith_eq_instr_iff.mp h
    rw [encodeWith_assemble, mnemonic_assemble, lookup_some hm]
  · obtain ⟨hno, rfl⟩ := decodeWith_eq_unsupported_iff.mp h
    refine ⟨rfl, fun i hprefix => hno i.mnemonic ?_⟩
    exact (List.cons.inj hprefix).1

/-- Settles O26, by evaluating the table; the default map is injective, so 13 bytes are opcode values and the other 243
are not. -/
theorem defaultOpcodeValues : Obligations.DefaultOpcodeValues := by
  unfold Obligations.DefaultOpcodeValues
  have hnodup : (allMnemonics.map opc).Nodup := by decide
  exact ⟨rfl, hnodup, length_filter_unsupported (injective_of_nodup_opcodes hnodup), rfl, rfl, rfl, rfl, rfl⟩

end Sys2Proof

namespace Sys2Proof.Machine

/-! ## What a step fetches -/

/-- When the bytes from `pc` on begin with the encoding of an instruction, that instruction is fetched
(30_encoding.md R87). -/
theorem fetch_of_encoded {o : OpcodeMap} (ho : Function.Injective o) {i : Instr} {s : State}
    (h : ∀ (k : Nat) (hk : k < (encodeWith o i).length), s.memRead (s.pc.toNat + k) = (encodeWith o i)[k]) :
    fetch o s = .instr i := by
  have hlen : (encodeWith o i).length ≤ 3 := by
    rw [encodeWith_length]
    cases i.mnemonic <;> decide
  have hprefix : encodeWith o i = ((List.range 3).map s.instrByte).take (encodeWith o i).length :=
    List.ext_getElem (by simp [hlen]) fun k hk _ => by simp [State.instrByte, h k hk]
  have hbytes := List.take_append_drop (encodeWith o i).length ((List.range 3).map s.instrByte)
  rw [← hprefix] at hbytes
  exact decodeInvertsEncode o ho i _ _ _ _ [] hbytes

/-- Settles O15: the instruction fetched is the one encoded at `pc`, and a running engine runs what it fetched. -/
theorem stepRunsDecodedInstruction : Obligations.StepRunsDecodedInstruction := by
  unfold Obligations.StepRunsDecodedInstruction
  exact ⟨fun o ho i s hrun h => stepWith_instr hrun (fetch_of_encoded ho h),
    fun i s hrun h => stepWith_instr (o := opc) hrun h⟩

end Sys2Proof.Machine
end

section
/-! SUPPORT. Everything an instruction and a step can do, once: complete, report the first bad operand, or report an
unsupported opcode; and the statements on faults and the run status. -/

namespace Sys2Proof.Machine

/-! ## The first register operand above 7 -/

/-- The first register operand above 7, in the order they are checked (60_exceptions.md R174). -/
def firstBadOperand (i : Instr) : Option Byte := i.registerOperands.find? fun x => decide (7 < x.toNat)

/-- The register check of the model asks for the same operand. -/
theorem find?_not_isRegByte (i : Instr) :
    i.registerOperands.find? (fun b => !isRegByte b) = firstBadOperand i := by
  have h : (fun b => !isRegByte b) = fun x : Byte => decide (7 < x.toNat) := by
    funext b
    simp [isRegByte, ← decide_not, Nat.succ_le_iff]
  rw [h, firstBadOperand]

/-- No operand is bad exactly when the instruction is well formed. -/
theorem firstBadOperand_eq_none {i : Instr} : firstBadOperand i = none ↔ i.wellFormed = true := by
  simp [firstBadOperand, wellFormed_iff, Nat.lt_succ_iff]

/-- What the first bad operand is: a register operand above 7. -/
theorem firstBadOperand_some {i : Instr} {b : Byte} (h : firstBadOperand i = some b) :
    b ∈ i.registerOperands ∧ 7 < b.toNat :=
  ⟨List.mem_of_find?_eq_some h, by simpa using List.find?_some h⟩

/-- An instruction has at most two register operands (30_encoding.md R80). -/
theorem registerOperands_cases (i : Instr) :
    i.registerOperands = [] ∨ (∃ r, i.registerOperands = [r]) ∨ ∃ a b, i.registerOperands = [a, b] := by
  cases i <;> simp [Instr.registerOperands]

/-- The first bad operand is the one reported, from every state (60_exceptions.md R172, R174; D5, D6). -/
theorem raisesIndexFault_of_firstBadOperand {i : Instr} {b : Byte} (h : firstBadOperand i = some b) (s : State) :
    raisesIndexFault i b s := by
  rcases registerOperands_cases i with hi | ⟨r, hi⟩ | ⟨a, c, hi⟩ <;> rw [firstBadOperand, hi] at h
  · cases h
  · obtain ⟨hr, rfl⟩ : 7 < r.toNat ∧ r = b := by simpa using h
    exact raisesIndexFault_of_registerOperands_eq hi hr s
  · by_cases ha : 7 < a.toNat
    · obtain rfl : a = b := by simpa [ha] using h
      exact raisesIndexFault_first hi ha s
    · obtain ⟨hc, rfl⟩ : 7 < c.toNat ∧ c = b := by simpa [ha] using h
      exact raisesIndexFault_second hi (by omega) hc s

/-! ## One instruction -/

/-- Everything exec can do when it answers a next state, with the operand that a fault reports. -/
theorem exec_cases {i : Instr} {s t : State} (h : exec i s = .next t) :
    Completed i s t ∨
      ∃ b, firstBadOperand i = some b ∧ t = s.setRun (.faulted .invalidRegisterIndex b s.pc) := by
  cases hb : firstBadOperand i with
  | none => exact .inl (completed_of_wellFormed (firstBadOperand_eq_none.mp hb) h)
  | some b =>
    have hfault := raisesIndexFault_of_firstBadOperand hb s
    exact .inr ⟨b, rfl, Host.Outcome.next.inj (h.symm.trans hfault)⟩

/-- Every instruction answers a next state, from every state. -/
theorem exists_exec_next (i : Instr) (s : State) : ∃ t, exec i s = .next t := by
  cases hb : firstBadOperand i with
  | none =>
    obtain ⟨t, ht⟩ := exists_completed (firstBadOperand_eq_none.mp hb) s
    exact ⟨t, exec_of_completed ht⟩
  | some b => exact ⟨_, raisesIndexFault_of_firstBadOperand hb s⟩

/-- Only a well-formed instruction completes (30_encoding.md R85). -/
theorem Completed.wellFormed {i : Instr} {s t : State} (h : Completed i s t) : i.wellFormed = true := by
  rw [wellFormed_iff]
  cases i with
  | ldi r _ | prn r | push r | pop r | call r | jmp r | jeq r | jne r =>
    obtain ⟨hr, -⟩ := h
    simpa [Instr.registerOperands] using hr
  | add a b | mult a b | cmp a b =>
    obtain ⟨ha, hb, -⟩ := h
    simpa [Instr.registerOperands] using ⟨ha, hb⟩
  | ret | hlt => simp [Instr.registerOperands]

/-- HLT halts and every other completed instruction keeps a running engine running (10_state.md R28). -/
theorem Completed.run_of_running {i : Instr} {s t : State} (h : Completed i s t) (hrun : s.run = .running) :
    (t.run = .running ∧ i ≠ .hlt) ∨ (t.run = .halted ∧ i = .hlt) := by
  by_cases hi : i = .hlt
  · subst hi
    obtain rfl : t = _ := h
    exact .inr ⟨rfl, rfl⟩
  · exact .inl ⟨(h.run_eq.resolve_right hi).trans hrun, hi⟩

/-! ## One step -/

/-- Everything a step can do when it answers a next state (30_encoding.md R87; 60_exceptions.md R171, R172). -/
theorem stepWith_cases {o : OpcodeMap} {s t : State} (h : stepWith o s = .next t) :
    (∃ i, fetch o s = .instr i ∧ Completed i s t) ∨
      (∃ i b, fetch o s = .instr i ∧ firstBadOperand i = some b ∧
        t = s.setRun (.faulted .invalidRegisterIndex b s.pc)) ∨
      ∃ b, fetch o s = .unsupported b ∧ t = s.setRun (.faulted .unsupportedInstruction b s.pc) := by
  rcases stepWith_next h with ⟨-, ⟨i, hf, he⟩ | hunsupported⟩
  · rcases exec_cases he with hc | ⟨b, hb, ht⟩
    · exact .inl ⟨i, hf, hc⟩
    · exact .inr (.inl ⟨i, b, hf, hb, ht⟩)
  · exact .inr (.inr hunsupported)

@[simp] theorem State.goneWrong_setRun_faulted (s : State) (c : Cause) (b : Byte) (p : Addr) :
    (s.setRun (.faulted c b p)).goneWrong = true := rfl

theorem State.goneWrong_of_running {s : State} (h : s.run = .running) : s.goneWrong = false := by
  rw [State.goneWrong, h]

theorem State.goneWrong_of_halted {s : State} (h : s.run = .halted) : s.goneWrong = false := by
  rw [State.goneWrong, h]

/-- A completed instruction leaves no fault (60_exceptions.md R175). -/
theorem Completed.goneWrong_eq_false {i : Instr} {s t : State} (h : Completed i s t) (hrun : s.run = .running) :
    t.goneWrong = false := by
  rcases h.run_of_running hrun with ⟨ht, -⟩ | ⟨ht, -⟩
  · exact State.goneWrong_of_running ht
  · exact State.goneWrong_of_halted ht

/-- A step faults in two ways only, each a change of `run` alone (60_exceptions.md R170, R175; D5, D6). -/
theorem stepWith_goneWrong {o : OpcodeMap} {s t : State} (h : stepWith o s = .next t) (ht : t.goneWrong = true) :
    (∃ i b, fetch o s = .instr i ∧ firstBadOperand i = some b ∧
        t = s.setRun (.faulted .invalidRegisterIndex b s.pc)) ∨
      ∃ b, fetch o s = .unsupported b ∧ t = s.setRun (.faulted .unsupportedInstruction b s.pc) := by
  rcases stepWith_cases h with ⟨i, -, hc⟩ | hfault
  · rw [hc.goneWrong_eq_false (stepWith_next h).1] at ht
    cases ht
  · exact hfault

/-- The byte reported as unsupported is the one at `pc`, which is no opcode value (60_exceptions.md R171). -/
theorem fetch_eq_unsupported_iff {o : OpcodeMap} {s : State} {b : Byte} :
    fetch o s = .unsupported b ↔ (∀ m, o m ≠ s.memRead s.pc.toNat) ∧ s.memRead s.pc.toNat = b :=
  decodeWith_eq_unsupported_iff

/-! ## The statements -/

/-- Settles O14: the first bad operand is reported whatever the instruction is; without one the instruction is well
formed and completes, and only HLT changes `run`. -/
theorem firstBadRegisterOperandIsReported : Obligations.FirstBadRegisterOperandIsReported := by
  unfold Obligations.FirstBadRegisterOperandIsReported
  refine fun i s => ⟨fun b hb => raisesIndexFault_of_firstBadOperand hb s, fun hnone => ?_⟩
  obtain ⟨t, hc⟩ := exists_completed (firstBadOperand_eq_none.mp hnone) s
  refine ⟨t, exec_of_completed hc, hc.run_eq.imp_right ?_⟩
  rintro rfl
  obtain rfl : t = _ := hc
  rfl

/-- Settles O16: a byte that is no opcode value is fetched as unsupported, and a running engine raises it. -/
theorem unsupportedOpcodeIsFatal : Obligations.UnsupportedOpcodeIsFatal := by
  unfold Obligations.UnsupportedOpcodeIsFatal
  exact fun o s hrun hno => stepWith_unsupported hrun (fetch_eq_unsupported_iff.mpr ⟨hno, rfl⟩)

/-- Settles O17: the step looks at `run` first, and reset makes it `Running`. -/
theorem stoppedEngineTakesNoStep : Obligations.StoppedEngineTakesNoStep := by
  unfold Obligations.StoppedEngineTakesNoStep
  refine ⟨fun o s h => stepWith_halted o h, fun o s c b p h => ?_, fun _ => rfl⟩
  simp only [stepWith, h]

/-- Settles O18: whatever is fetched, its effect is a next state. -/
theorem runningEngineAlwaysSteps : Obligations.RunningEngineAlwaysSteps := by
  unfold Obligations.RunningEngineAlwaysSteps
  intro o s hrun
  cases hf : fetch o s with
  | instr i =>
    obtain ⟨t, ht⟩ := exists_exec_next i s
    exact ⟨t, (stepWith_instr hrun hf).trans ht⟩
  | unsupported b => exact ⟨_, stepWith_unsupported hrun hf⟩

/-- Settles O19: a faulting step is one of the two changes of `run`, and each records what the fetch saw. -/
theorem faultsArePrecise : Obligations.FaultsArePrecise := by
  unfold Obligations.FaultsArePrecise
  intro o s t h ht
  rcases stepWith_goneWrong h ht with ⟨i, b, hf, hb, rfl⟩ | ⟨b, hf, rfl⟩
  · obtain ⟨hmem, hbad⟩ := firstBadOperand_some hb
    exact ⟨_, b, rfl, .inr ⟨rfl, hbad, i, hf, hmem⟩⟩
  · exact ⟨_, b, rfl, .inl ⟨rfl, hf, (fetch_eq_unsupported_iff.mp hf).2.symm⟩⟩

/-- Settles O20, by what the step did: a completed instruction halts exactly when it is HLT and never faults; the two
faults are the conditions listed. -/
theorem runStatusEdges : Obligations.RunStatusEdges := by
  unfold Obligations.RunStatusEdges
  intro o s t h
  have hrun := (stepWith_next h).1
  refine ⟨hrun, ?_⟩
  rcases stepWith_cases h with ⟨i, hf, hc⟩ | ⟨i, b, hf, hb, rfl⟩ | ⟨b, hf, rfl⟩
  · have hops := wellFormed_iff.mp hc.wellFormed
    have hnofault : ¬ ∃ b ∈ i.registerOperands, 7 < b.toNat :=
      fun ⟨b, hmem, hbad⟩ => Nat.not_lt.mpr (Nat.le_of_lt_succ (hops b hmem)) hbad
    have hgood := hc.goneWrong_eq_false hrun
    rcases hc.run_of_running hrun with ⟨ht, hi⟩ | ⟨ht, hi⟩
    · simpa [hf, ht, hi, hgood] using hnofault
    · simpa [hf, ht, hi, hgood] using hnofault
  · obtain ⟨hmem, hbad⟩ := firstBadOperand_some hb
    have hi : i ≠ .hlt := by
      rintro rfl
      cases hmem
    exact ⟨by simp [hf, hi], by simpa [hf] using ⟨b, hmem, hbad⟩, .inr (.inr rfl)⟩
  · exact ⟨by simp [hf], by simp [hf], .inr (.inr rfl)⟩

end Sys2Proof.Machine
end

section
/-! SUPPORT. The register `fl`: who writes it, who reads it, and that GREATER and LESS cannot be told apart. -/

namespace Sys2Proof.Machine

/-! ## Who writes `fl` -/

/-- CMP's result is one-hot (44_compare.md R150). -/
theorem flCompared_compareFlags (u v : Byte) : flCompared (compareFlags u v) = true := by
  rcases Nat.lt_trichotomy u.toNat v.toNat with h | h | h
  · rw [compareFlags_of_lt h]; rfl
  · rw [compareFlags_of_eq h]; rfl
  · rw [compareFlags_of_gt h]; rfl

/-- A completed CMP leaves `fl` one-hot (10_state.md R26). -/
theorem Completed.flCompared_of_cmp {a b : Byte} {s t : State} (h : Completed (.cmp a b) s t) :
    flCompared t.fl = true := by
  obtain ⟨ha, hb, rfl⟩ := h
  exact flCompared_compareFlags _ _

/-- Only CMP writes `fl` when it completes (10_state.md R25). -/
theorem Completed.fl_eq {i : Instr} {s t : State} (h : Completed i s t) (hi : i.mnemonic ≠ .cmp) : t.fl = s.fl := by
  cases i with
  | cmp a b => exact absurd rfl hi
  | ldi r _ | prn r | push r | pop r | call r | jmp r => obtain ⟨hr, rfl⟩ := h; rfl
  | jeq r | jne r => obtain ⟨hr, rfl⟩ := h; rw [branch_eq_setPc]; rfl
  | add a b | mult a b => obtain ⟨ha, hb, rfl⟩ := h; rfl
  | ret | hlt => obtain rfl : t = _ := h; rfl

/-- A completed instruction keeps `fl` or makes it one-hot (10_state.md R25, R26; D15). -/
theorem Completed.fl_cases {i : Instr} {s t : State} (h : Completed i s t) :
    t.fl = s.fl ∨ flCompared t.fl = true := by
  by_cases hi : i.mnemonic = .cmp
  · cases i <;> cases hi
    exact .inr h.flCompared_of_cmp
  · exact .inl (h.fl_eq hi)

/-- A step keeps `fl` or makes it one-hot; a fault keeps it (10_state.md R26; D6, D15). -/
theorem stepWith_fl {o : OpcodeMap} {s t : State} (h : stepWith o s = .next t) :
    t.fl = s.fl ∨ flCompared t.fl = true := by
  rcases stepWith_cases h with ⟨i, -, hc⟩ | ⟨i, b, -, -, rfl⟩ | ⟨b, -, rfl⟩
  · exact hc.fl_cases
  · exact .inl rfl
  · exact .inl rfl

/-! ## Who reads `fl` -/

/-- A conditional jump from another value of `fl` differs in `fl` and in the `pc` that its own test gives. -/
theorem branch_setFl (s : State) (f : Byte) (taken taken' : Bool) (target : Addr) :
    branch taken target (s.setFl f) =
      ((branch taken' target s).setFl f).setPc (branch taken target s).pc := by
  simp only [branch_eq_setPc]
  rfl

/-- With another value `f` in `fl` an instruction completes with the same effect but for `fl`, which stays `f` unless
the instruction is CMP, and for `pc`, which follows `f` only in JEQ and JNE and only through their tests
(10_state.md R25). -/
theorem Completed.setFl {i : Instr} {s t : State} (h : Completed i s t) (f : Byte) :
    ∃ p, Completed i (s.setFl f) ((t.setFl (if i.mnemonic = .cmp then t.fl else f)).setPc p) ∧
      (i.mnemonic ≠ .jeq → i.mnemonic ≠ .jne → p = t.pc) ∧
      (equalSet f = equalSet s.fl → greaterOrLessSet f = greaterOrLessSet s.fl → p = t.pc) := by
  cases i with
  | ldi r _ | prn r | push r | pop r | call r | jmp r =>
    obtain ⟨hr, rfl⟩ := h
    exact ⟨_, ⟨hr, rfl⟩, fun _ _ => rfl, fun _ _ => rfl⟩
  | add a b | mult a b | cmp a b =>
    obtain ⟨ha, hb, rfl⟩ := h
    exact ⟨_, ⟨ha, hb, rfl⟩, fun _ _ => rfl, fun _ _ => rfl⟩
  | ret | hlt =>
    obtain rfl : t = _ := h
    exact ⟨_, rfl, fun _ _ => rfl, fun _ _ => rfl⟩
  | jeq r =>
    obtain ⟨hr, rfl⟩ := h
    exact ⟨_, ⟨hr, (branch_setFl ..).symm⟩, fun hjeq _ => absurd rfl hjeq, fun hE _ => by rw [State.setFl_fl, hE]⟩
  | jne r =>
    obtain ⟨hr, rfl⟩ := h
    exact ⟨_, ⟨hr, (branch_setFl ..).symm⟩, fun _ hjne => absurd rfl hjne, fun _ hGL => by rw [State.setFl_fl, hGL]⟩

/-! ## GREATER for LESS -/

/-- Alike values of `fl` give JEQ and JNE the same tests (43_control_transfer.md R145). -/
theorem flAlike.tests_eq {f g : Byte} (h : flAlike f g) :
    equalSet g = equalSet f ∧ greaterOrLessSet g = greaterOrLessSet f := by
  rcases h with rfl | ⟨rfl | rfl, rfl | rfl⟩ <;> exact ⟨rfl, rfl⟩

/-- States equal but for GREATER and LESS are one state with two values of `fl`. -/
theorem sameUpToOrder_iff {s s' : State} : sameUpToOrder s s' ↔ ∃ f, flAlike s.fl f ∧ s' = s.setFl f := by
  constructor
  · rintro ⟨halike, hs⟩
    refine ⟨s'.fl, halike, ?_⟩
    rw [hs]
    rfl
  · rintro ⟨f, halike, rfl⟩
    exact ⟨halike, rfl⟩

/-- A completed instruction keeps GREATER and LESS indistinguishable (43_control_transfer.md R145). -/
theorem Completed.setFl_alike {i : Instr} {s t : State} (h : Completed i s t) {f : Byte} (hf : flAlike s.fl f) :
    ∃ f', Completed i (s.setFl f) (t.setFl f') ∧ flAlike t.fl f' := by
  obtain ⟨p, hc, -, hp⟩ := h.setFl f
  obtain rfl := hp hf.tests_eq.1 hf.tests_eq.2
  refine ⟨_, hc, ?_⟩
  by_cases hi : i.mnemonic = .cmp
  · exact .inl (if_pos hi).symm
  · rwa [if_neg hi, h.fl_eq hi]

/-! ## The statements -/

/-- Settles O40, step by step: the same bytes are fetched, JEQ and JNE take the same way, and a fault or an instruction
other than CMP carries the two values of `fl` along. -/
theorem greaterAndLessAreIndistinguishable : Obligations.GreaterAndLessAreIndistinguishable := by
  unfold Obligations.GreaterAndLessAreIndistinguishable
  intro o s s' t hsame h
  obtain ⟨f, halike, rfl⟩ := sameUpToOrder_iff.mp hsame
  have hrun : (s.setFl f).run = .running := (stepWith_next h).1
  rcases stepWith_cases h with ⟨i, hf, hc⟩ | ⟨i, b, hf, hb, rfl⟩ | ⟨b, hf, rfl⟩
  · obtain ⟨f', hc', halike'⟩ := hc.setFl_alike halike
    exact ⟨_, (stepWith_instr hrun hf).trans (exec_of_completed hc'), sameUpToOrder_iff.mpr ⟨f', halike', rfl⟩⟩
  · exact ⟨_, (stepWith_instr hrun hf).trans (raisesIndexFault_of_firstBadOperand hb _),
      sameUpToOrder_iff.mpr ⟨f, halike, rfl⟩⟩
  · exact ⟨_, stepWith_unsupported hrun hf, sameUpToOrder_iff.mpr ⟨f, halike, rfl⟩⟩

/-- Settles O34: a completed instruction has the same effect from another `fl` but for `fl` and `pc`, and an ill-formed
one changes only `run`. -/
theorem onlyCompareTouchesFlags : Obligations.OnlyCompareTouchesFlags := by
  unfold Obligations.OnlyCompareTouchesFlags
  refine ⟨fun i s t hi h => ?_, fun i s t f h => ?_⟩
  · rcases exec_cases h with hc | ⟨b, -, rfl⟩
    · exact hc.fl_eq hi
    · rfl
  · rcases exec_cases h with hc | ⟨b, hb, rfl⟩
    · obtain ⟨p, hc', hp, -⟩ := hc.setFl f
      exact ⟨_, exec_of_completed hc', rfl, hp, fun hi _ => if_pos hi⟩
    · refine ⟨_, raisesIndexFault_of_firstBadOperand hb _, rfl, fun _ _ => rfl, fun _ hwf => ?_⟩
      rw [firstBadOperand_eq_none.mpr hwf] at hb
      cases hb

/-- Settles O30: reset clears `fl`, CMP makes it one-hot, and every step keeps it or makes it so. -/
theorem flagsStayOneHotAfterCompare : Obligations.FlagsStayOneHotAfterCompare := by
  unfold Obligations.FlagsStayOneHotAfterCompare
  refine ⟨rfl, fun a b s t hi h => (completed_of_wellFormed hi h).flCompared_of_cmp, fun o s t hs h => ?_⟩
  rcases stepWith_fl h with hkept | hcompared
  · rwa [hkept]
  · exact hcompared

end Sys2Proof.Machine
end

section
/-! SUPPORT. The canonical form of memory, the launch, and the invariant of the machine. -/

namespace Sys2Proof.Machine

/-! ## The canonical form -/

/-- What a canonical list with a first cell says of that cell and of the rest (log 20). -/
theorem Memory.wfFrom_cons {lo a : Nat} {v : Byte} {rest : Memory} (h : Memory.wfFrom lo ((a, v) :: rest) = true) :
    lo ≤ a ∧ a < 256 ∧ v ≠ Config.memReset ∧ Memory.wfFrom (a + 1) rest = true := by
  simp only [Memory.wfFrom, Bool.and_eq_true, decide_eq_true_eq, and_assoc] at h
  exact h

theorem Memory.lookupCell_head (a : Nat) (v : Byte) (rest : Memory) : Memory.lookupCell ((a, v) :: rest) a = v :=
  if_pos rfl

theorem Memory.lookupCell_tail {a k : Nat} (v : Byte) (rest : Memory) (h : k ≠ a) :
    Memory.lookupCell ((a, v) :: rest) k = Memory.lookupCell rest k :=
  if_neg h.symm

/-- Below the lower bound of its addresses a memory reads as the reset byte (log 20). -/
theorem Memory.lookupCell_of_lt {m : Memory} {lo k : Nat} (h : Memory.wfFrom lo m = true) (hk : k < lo) :
    Memory.lookupCell m k = Config.memReset := by
  induction m generalizing lo with
  | nil => rfl
  | cons c rest ih =>
    obtain ⟨a, v⟩ := c
    obtain ⟨hlo, -, -, hrest⟩ := Memory.wfFrom_cons h
    rw [Memory.lookupCell_tail v rest (by omega)]
    exact ih hrest (by omega)

/-- A cell that does not read as the reset byte is not below the first listed one (log 20). -/
theorem Memory.head_le_of_lookupCell_ne {a lo k : Nat} {v : Byte} {rest : Memory}
    (h : Memory.wfFrom lo ((a, v) :: rest) = true) (hk : Memory.lookupCell ((a, v) :: rest) k ≠ Config.memReset) :
    a ≤ k := by
  obtain ⟨-, -, -, hrest⟩ := Memory.wfFrom_cons h
  by_contra hlt
  rw [Memory.lookupCell_tail v rest (by omega)] at hk
  exact hk (Memory.lookupCell_of_lt hrest (by omega))

/-- Canonical lists that read alike are equal: they begin with the same cell, the first that does not read as the reset
byte, and so on (log 20). -/
theorem Memory.eq_of_lookupCell_eq {m m' : Memory} {lo lo' : Nat} (h : Memory.wfFrom lo m = true)
    (h' : Memory.wfFrom lo' m' = true) (hread : ∀ k < 256, Memory.lookupCell m k = Memory.lookupCell m' k) :
    m = m' := by
  induction m generalizing m' lo lo' with
  | nil =>
    cases m' with
    | nil => rfl
    | cons c rest' =>
      obtain ⟨a', v'⟩ := c
      obtain ⟨-, hlt', hv', -⟩ := Memory.wfFrom_cons h'
      exact absurd ((hread a' hlt').trans (Memory.lookupCell_head ..)).symm hv'
  | cons c rest ih =>
    obtain ⟨a, v⟩ := c
    obtain ⟨-, hlt, hv, hrest⟩ := Memory.wfFrom_cons h
    cases m' with
    | nil => exact absurd ((hread a hlt).symm.trans (Memory.lookupCell_head ..)).symm hv
    | cons c' rest' =>
      obtain ⟨a', v'⟩ := c'
      obtain ⟨-, hlt', hv', hrest'⟩ := Memory.wfFrom_cons h'
      have hle : a ≤ a' := Memory.head_le_of_lookupCell_ne h (by rwa [hread a' hlt', Memory.lookupCell_head])
      have hge : a' ≤ a := Memory.head_le_of_lookupCell_ne h' (by rwa [← hread a hlt, Memory.lookupCell_head])
      obtain rfl : a = a' := Nat.le_antisymm hle hge
      obtain rfl : v = v' := by simpa only [Memory.lookupCell_head] using hread a hlt
      have htail : ∀ k < 256, Memory.lookupCell rest k = Memory.lookupCell rest' k := by
        intro k hk
        by_cases hka : k = a
        · rw [hka, Memory.lookupCell_of_lt hrest a.lt_succ_self, Memory.lookupCell_of_lt hrest' a.lt_succ_self]
        · simpa only [Memory.lookupCell_tail _ _ hka] using hread k hk
      rw [ih hrest hrest' htail]

/-! ## Who stores -/

/-- A completed instruction keeps memory, or it is PUSH or CALL and leaves the memory of a push (10_state.md R27). -/
theorem Completed.mem_cases {i : Instr} {s t : State} (h : Completed i s t) :
    t.mem = s.mem ∨ (stores i = true ∧ ∃ v, t.mem = (s.push v).mem) := by
  cases i with
  | push r | call r => obtain ⟨hr, rfl⟩ := h; exact .inr ⟨rfl, _, rfl⟩
  | ldi r _ | prn r | pop r | jmp r => obtain ⟨hr, rfl⟩ := h; exact .inl rfl
  | jeq r | jne r => obtain ⟨hr, rfl⟩ := h; rw [branch_eq_setPc]; exact .inl rfl
  | add a b | mult a b | cmp a b => obtain ⟨ha, hb, rfl⟩ := h; exact .inl rfl
  | ret | hlt => obtain rfl : t = _ := h; exact .inl rfl

/-- A step keeps memory, or it completes a PUSH or CALL and leaves the memory of a push; a fault keeps it
(10_state.md R27; D5, D6). -/
theorem stepWith_mem {o : OpcodeMap} {s t : State} (h : stepWith o s = .next t) :
    t.mem = s.mem ∨
      ∃ i, fetch o s = .instr i ∧ (stores i && i.wellFormed) = true ∧ ∃ v, t.mem = (s.push v).mem := by
  rcases stepWith_cases h with ⟨i, hf, hc⟩ | ⟨i, b, -, -, rfl⟩ | ⟨b, -, rfl⟩
  · exact hc.mem_cases.imp_right fun ⟨hstores, hmem⟩ => ⟨i, hf, by rw [hstores, hc.wellFormed]; rfl, hmem⟩
  · exact .inl rfl
  · exact .inl rfl

theorem keepsMemory_of_mem_eq {s t : State} (h : t.mem = s.mem) : keepsMemory s t := fun a => by
  rw [State.memRead, h, State.memRead]

theorem keepsMemoryBut_of_mem_eq_push {s t : State} {v : Byte} (h : t.mem = (s.push v).mem) :
    keepsMemoryBut s.pushAddr s t :=
  fun a ha => (keepsMemory_of_mem_eq (s := s.push v) h a).trans (s.push_keepsMemoryBut v a ha)

/-! ## The parts of the invariant -/

theorem State.inv_iff {o : OpcodeMap} {s : State} :
    s.inv o = true ↔ Memory.wf s.mem = true ∧ flLegal s.fl = true ∧ s.faultTruthful o = true := by
  simp [State.inv, and_assoc]

/-- The compared values of `fl` are legal (10_state.md R26). -/
theorem flLegal_of_flCompared {f : Byte} (h : flCompared f = true) : flLegal f = true := by
  simp only [flLegal, flCompared, decide_eq_true_eq] at h ⊢
  exact .inr h

/-- The `fl` of the reset state is legal (10_state.md R26; D4). -/
theorem flLegal_reset : flLegal State.reset.fl = true := by decide

/-- A state without a fault has no record to check (10_state.md R28). -/
theorem State.faultTruthful_of_not_goneWrong {o : OpcodeMap} {s : State} (h : s.goneWrong = false) :
    s.faultTruthful o = true := by
  rw [State.goneWrong] at h
  rw [State.faultTruthful]
  cases hr : s.run with
  | running | halted => rfl
  | faulted c b p => simp [hr] at h

/-- Every step keeps the canonical form of memory (log 20). -/
theorem stepWith_wf {o : OpcodeMap} {s t : State} (h : stepWith o s = .next t) (hs : Memory.wf s.mem = true) :
    Memory.wf t.mem = true := by
  rcases stepWith_mem h with hmem | ⟨-, -, -, v, hmem⟩ <;> rw [hmem]
  · exact hs
  · exact Memory.wf_write _ _ hs

/-- Every step keeps `fl` legal (10_state.md R26; D4, D15). -/
theorem stepWith_flLegal {o : OpcodeMap} {s t : State} (h : stepWith o s = .next t) (hs : flLegal s.fl = true) :
    flLegal t.fl = true := by
  rcases stepWith_fl h with hkept | hcompared
  · rwa [hkept]
  · exact flLegal_of_flCompared hcompared

/-- The record that a step leaves is true of the state it leaves, because a fault changes no byte that is fetched
(60_exceptions.md R175; D5, D6). -/
theorem stepWith_faultTruthful {o : OpcodeMap} {s t : State} (h : stepWith o s = .next t) :
    t.faultTruthful o = true := by
  cases ht : t.goneWrong with
  | false => exact State.faultTruthful_of_not_goneWrong ht
  | true =>
    rcases stepWith_goneWrong h ht with ⟨i, b, hf, hb, rfl⟩ | ⟨b, hf, rfl⟩
    · have hf' : fetch o (s.setRun (.faulted .invalidRegisterIndex b s.pc)) = .instr i := hf
      have hbad : ¬ b.toNat < 8 := Nat.not_lt.mpr (firstBadOperand_some hb).2
      simp [State.faultTruthful, hf', find?_not_isRegByte, hb, hbad]
    · have hf' : fetch o (s.setRun (.faulted .unsupportedInstruction b s.pc)) = .unsupported b := hf
      simp [State.faultTruthful, hf']

/-! ## Launch -/

/-- Everything a launch can answer (70_reset_and_hazards.md R191; D12). -/
theorem launch_eq (image : List Byte) :
    launch image = if image.length ≤ 256 then .next { State.reset with mem := Memory.loadFrom 0 image [] }
      else .refused .imageTooLong := by
  simp only [launch, load, Config.memSize]
  by_cases h : image.length ≤ 256 <;> simp only [h] <;> rfl

/-- The launch state of an image that fits (70_reset_and_hazards.md R191; D12). -/
theorem launch_next {image : List Byte} {s : State} (h : launch image = .next s) :
    image.length ≤ 256 ∧ s = { State.reset with mem := Memory.loadFrom 0 image [] } := by
  rw [launch_eq] at h
  split at h
  · next hlen => exact ⟨hlen, (Host.Outcome.next.inj h).symm⟩
  · cases h

/-- A cell past the image reads as zero at launch (70_reset_and_hazards.md R191). -/
theorem Memory.read_loadFrom_past {image : List Byte} (hlen : image.length ≤ 256) {a : Nat} (ha : image.length ≤ a)
    (hlt : a < 256) : Memory.read (Memory.loadFrom 0 image []) a = 0x00#8 :=
  Memory.read_loadFrom_outside image 0 [] hlt (by simpa [Config.memSize] using hlen) (.inr (by omega))

/-! ## The statements -/

/-- Settles O27: each of the three properties is kept by every step; the fault record needs no hypothesis, since a
running engine has none. -/
theorem stepKeepsInvariant : Obligations.StepKeepsInvariant := by
  unfold Obligations.StepKeepsInvariant
  intro o s t hs h
  obtain ⟨hwf, hfl, -⟩ := State.inv_iff.mp hs
  exact State.inv_iff.mpr ⟨stepWith_wf h hwf, stepWith_flLegal h hfl, stepWith_faultTruthful h⟩

/-- Settles O28: the reset state lists no cell, clears `fl` and runs. -/
theorem resetMeetsInvariant : Obligations.ResetMeetsInvariant := by
  unfold Obligations.ResetMeetsInvariant
  exact fun o => State.inv_iff.mpr ⟨Memory.wf_reset, flLegal_reset, State.faultTruthful_of_not_goneWrong rfl⟩

/-- Settles O29: loading keeps the canonical form, by induction over the image, and leaves everything else at reset. -/
theorem launchMeetsInvariant : Obligations.LaunchMeetsInvariant := by
  unfold Obligations.LaunchMeetsInvariant
  intro o image s h
  obtain ⟨-, rfl⟩ := launch_next h
  exact State.inv_iff.mpr
    ⟨Memory.wf_loadFrom 0 image Memory.wf_reset, flLegal_reset, State.faultTruthful_of_not_goneWrong rfl⟩

/-- Settles O31, by induction over both lists. -/
theorem canonicalMemoriesReadingAlikeAreEqual : Obligations.CanonicalMemoriesReadingAlikeAreEqual := by
  unfold Obligations.CanonicalMemoriesReadingAlikeAreEqual
  refine fun m m' h h' hread => Memory.eq_of_lookupCell_eq h h' fun k hk => ?_
  simpa only [Memory.read, Config.memSize, Nat.mod_eq_of_lt hk] using hread k

/-- Settles O35: a step leaves the memory as it was or as after a push, the latter only by PUSH and CALL. -/
theorem onlyPushAndCallStore : Obligations.OnlyPushAndCallStore := by
  unfold Obligations.OnlyPushAndCallStore
  intro o s t h
  rcases stepWith_mem h with hmem | ⟨i, hf, hstores, v, hmem⟩
  · exact ⟨fun a _ => keepsMemory_of_mem_eq hmem a, fun _ => keepsMemory_of_mem_eq hmem⟩
  · refine ⟨keepsMemoryBut_of_mem_eq_push hmem, fun hnone => ?_⟩
    rw [hnone i hf] at hstores
    cases hstores

/-- Settles O43: the loader writes the image and nothing else, over the zeros of reset. -/
theorem launchPlacesImage : Obligations.LaunchPlacesImage := by
  unfold Obligations.LaunchPlacesImage
  refine ⟨fun image hlen => ⟨_, (launch_eq image).trans (if_pos hlen), fun i hi => ?_, fun a ha hlt => ?_, rfl⟩,
    fun image hlen => (launch_eq image).trans (if_neg (Nat.not_le.mpr hlen))⟩
  · have hplaced := Memory.read_loadFrom_inside image 0 [] (by simpa [Config.memSize] using hlen) i hi
    rwa [Nat.zero_add] at hplaced
  · exact Memory.read_loadFrom_past hlen ha hlt

/-- Settles O44: a cell past the image holds 0x00 at launch, which is no opcode value of the default map (D1). -/
theorem runningOffTheImageFaults : Obligations.RunningOffTheImageFaults := by
  unfold Obligations.RunningOffTheImageFaults
  intro image s hs u hrun hpast hsame
  obtain ⟨hlen, rfl⟩ := launch_next hs
  have hzero : u.memRead u.pc.toNat = 0x00#8 := hsame.trans (Memory.read_loadFrom_past hlen hpast u.pc.isLt)
  have hno (m : Mnemonic) : opc m ≠ u.memRead u.pc.toNat := by
    rw [hzero]
    cases m <;> decide
  exact stepWith_unsupported hrun (fetch_eq_unsupported_iff.mpr ⟨hno, hzero⟩)

end Sys2Proof.Machine
end

section
/-! SUPPORT. The listed accesses: a cell that a step does not list as read has no influence on it. -/

namespace Sys2Proof

/-- Instructions are one to three bytes long (30_encoding.md R80). -/
theorem lengthOf_bounds (m : Mnemonic) : 1 ≤ lengthOf m ∧ lengthOf m ≤ 3 := by
  cases m <;> decide

/-- Only the operand bytes within the length take part in an instruction (30_encoding.md R88). -/
theorem assemble_congr {m : Mnemonic} {x1 x2 y1 y2 : Byte} (h1 : 2 ≤ lengthOf m → x1 = y1)
    (h2 : 3 ≤ lengthOf m → x2 = y2) : assemble m x1 x2 = assemble m y1 y2 := by
  rw [← assemble_beyond_length m x1 x2 y1 y2, ite_eq_right_iff.mpr h1, ite_eq_right_iff.mpr h2]

end Sys2Proof

namespace Sys2Proof.Machine

/-! ## The list of accesses -/

section
variable {o : OpcodeMap} {s : State}

theorem accesses_of_instr {i : Instr} (hf : fetch o s = .instr i) :
    accesses o s = fetchReads (lengthOf i.mnemonic) s ++ if i.wellFormed then dataAccess i s else [] := by
  simp only [accesses, hf]

theorem accesses_of_unsupported {b : Byte} (hf : fetch o s = .unsupported b) : accesses o s = fetchReads 1 s := by
  simp only [accesses, hf]

theorem dataAccess_subset_accesses {i : Instr} (hf : fetch o s = .instr i) (hi : i.wellFormed = true) :
    dataAccess i s ⊆ accesses o s := by
  rw [accesses_of_instr hf, if_pos hi]
  exact List.subset_append_right _ _

end

/-- An instruction makes at most one data access, at the top of the stack or below it (20_memory.md R57). -/
theorem dataAccess_shape (i : Instr) (s : State) :
    (dataAccess i s).length ≤ 1 ∧ ∀ x ∈ dataAccess i s, x = .stackRead s.sp ∨ x = .stackWrite s.pushAddr := by
  cases i <;> simp [dataAccess]

/-- PUSH and CALL list their store (20_memory.md R57). -/
theorem stackWrite_mem_dataAccess {i : Instr} (hi : stores i = true) (s : State) :
    .stackWrite s.pushAddr ∈ dataAccess i s := by
  cases i with
  | push _ | call _ => exact List.mem_singleton_self _
  | ldi _ _ | prn _ | add _ _ | mult _ _ | pop _ | ret | jmp _ | jeq _ | jne _ | cmp _ _ | hlt => cases hi

/-! ## A cell that is not read -/

/-- A write to one cell changes no other (20_memory.md R51). -/
theorem State.memWrite_keepsMemoryBut (s : State) (a : Addr) (v : Byte) :
    keepsMemoryBut a s (s.memWrite a.toNat v) := fun b hb => by
  rw [State.memRead_memWrite, if_neg (by rwa [Nat.mod_eq_of_lt a.isLt])]

/-- A byte of the instruction that is listed as read is not the byte of an unlisted cell. -/
theorem State.instrByte_memWrite_unread (s : State) {a : Addr} {n k : Nat} (h : .fetchRead a ∉ fetchReads n s)
    (hk : k < n) (v : Byte) : (s.memWrite a.toNat v).instrByte k = s.instrByte k := by
  refine s.instrByte_memWrite_ne v fun e => h (List.mem_map.mpr ⟨k, List.mem_range.mpr hk, ?_⟩)
  rw [Nat.mod_eq_of_lt a.isLt] at e
  exact congrArg _ (BitVec.eq_of_toNat_eq (by simpa [BitVec.toNat_add] using e.symm))

/-- A cell that is not listed as read by the fetch unit takes no part in what is fetched (30_encoding.md R88). -/
theorem fetch_memWrite_unread {o : OpcodeMap} {s : State} {a : Addr} (h : .fetchRead a ∉ accesses o s) (v : Byte) :
    fetch o (s.memWrite a.toNat v) = fetch o s := by
  cases hf : fetch o s with
  | unsupported b =>
    rw [accesses_of_unsupported hf] at h
    rw [fetch, decodeWith_eq_unsupported_iff] at hf ⊢
    rwa [s.instrByte_memWrite_unread h Nat.zero_lt_one]
  | instr i =>
    rw [accesses_of_instr hf] at h
    have hunread := fun hmem => h (List.mem_append_left _ hmem)
    obtain ⟨m, hm, rfl⟩ := decodeWith_eq_instr_iff.mp hf
    rw [mnemonic_assemble] at hunread
    have hbyte (k : Nat) (hk : k < lengthOf m) : (s.memWrite a.toNat v).instrByte k = s.instrByte k :=
      s.instrByte_memWrite_unread hunread hk v
    rw [fetch, decodeWith_eq_instr_iff]
    exact ⟨m, by rwa [hbyte 0 (lengthOf_bounds m).1], assemble_congr (hbyte 1) (hbyte 2)⟩

/-- A cell that a completing instruction does not list as read keeps its own byte and changes nothing else
(20_memory.md R57). -/
theorem Completed.memWrite_unread {i : Instr} {s t : State} (h : Completed i s t) {a : Addr}
    (ha : .stackRead a ∉ dataAccess i s) (v : Byte) :
    ∃ t', Completed i (s.memWrite a.toNat v) t' ∧ t' = { t with mem := t'.mem } ∧ keepsMemoryBut a t t' := by
  have hkeep := s.memWrite_keepsMemoryBut a v
  have htop (hsp : .stackRead s.sp ∈ dataAccess i s) : (s.memWrite a.toNat v).stackTop = s.stackTop := by
    refine hkeep s.sp.toNat fun e => ha ?_
    rw [Nat.mod_eq_of_lt s.sp.isLt] at e
    rwa [← BitVec.eq_of_toNat_eq e]
  cases i with
  | push r | call r =>
    obtain ⟨hr, rfl⟩ := h
    refine ⟨_, ⟨hr, rfl⟩, rfl, fun b hb => ?_⟩
    simp [State.memRead_push, hkeep b hb]
  | pop r =>
    obtain ⟨hr, rfl⟩ := h
    exact ⟨_, ⟨hr, rfl⟩, by rw [htop (List.mem_singleton_self _)]; rfl, hkeep⟩
  | ret =>
    obtain rfl : t = _ := h
    exact ⟨_, rfl, by rw [htop (List.mem_singleton_self _)]; rfl, hkeep⟩
  | jeq r | jne r =>
    obtain ⟨hr, rfl⟩ := h
    refine ⟨_, ⟨hr, rfl⟩, ?_⟩
    simp only [branch_eq_setPc]
    exact ⟨rfl, hkeep⟩
  | ldi r _ | prn r | jmp r => obtain ⟨hr, rfl⟩ := h; exact ⟨_, ⟨hr, rfl⟩, rfl, hkeep⟩
  | add a b | mult a b | cmp a b => obtain ⟨ha, hb, rfl⟩ := h; exact ⟨_, ⟨ha, hb, rfl⟩, rfl, hkeep⟩
  | hlt => obtain rfl : t = _ := h; exact ⟨_, rfl, rfl, hkeep⟩

/-! ## The three parts of the statement, for any step -/

section
variable {o : OpcodeMap} {s t : State}

/-- The shape of the list: one to three fetches, then at most one data access (20_memory.md R57). -/
theorem accesses_shape (o : OpcodeMap) (s : State) :
    ∃ n data, 1 ≤ n ∧ n ≤ 3 ∧ accesses o s = fetchReads n s ++ data ∧ data.length ≤ 1 ∧
      ∀ x ∈ data, x = .stackRead s.sp ∨ x = .stackWrite s.pushAddr := by
  cases hf : fetch o s with
  | unsupported b => exact ⟨1, [], by decide, by decide, by simpa using accesses_of_unsupported hf, by simp, by simp⟩
  | instr i =>
    obtain ⟨hpos, hle⟩ := lengthOf_bounds i.mnemonic
    refine ⟨_, _, hpos, hle, accesses_of_instr hf, ?_⟩
    split
    · exact dataAccess_shape i s
    · simp

/-- A cell that changes is listed as written (20_memory.md R57). -/
theorem stepWith_memRead_of_unwritten (h : stepWith o s = .next t) {a : Addr}
    (ha : .stackWrite a ∉ accesses o s) : t.memRead a.toNat = s.memRead a.toNat := by
  rcases stepWith_mem h with hmem | ⟨i, hf, hi, v, hmem⟩
  · exact keepsMemory_of_mem_eq hmem _
  · obtain ⟨hstores, hwf⟩ := Bool.and_eq_true_iff.mp hi
    refine keepsMemoryBut_of_mem_eq_push hmem _ fun e => ha ?_
    rw [Nat.mod_eq_of_lt a.isLt] at e
    rw [BitVec.eq_of_toNat_eq e]
    exact dataAccess_subset_accesses hf hwf (stackWrite_mem_dataAccess hstores s)

/-- A cell that is not listed as read keeps its own byte through the step and changes nothing else (20_memory.md R57,
R61; D7). -/
theorem stepWith_memWrite_unread (h : stepWith o s = .next t) {a : Addr} (hfetch : .fetchRead a ∉ accesses o s)
    (hstack : .stackRead a ∉ accesses o s) (v : Byte) :
    ∃ t', stepWith o (s.memWrite a.toNat v) = .next t' ∧ t' = { t with mem := t'.mem } ∧ keepsMemoryBut a t t' := by
  have hrun : (s.memWrite a.toNat v).run = .running := (stepWith_next h).1
  have hsame := fetch_memWrite_unread hfetch v
  have hkeep := s.memWrite_keepsMemoryBut a v
  rcases stepWith_cases h with ⟨i, hf, hc⟩ | ⟨i, b, hf, hb, rfl⟩ | ⟨b, hf, rfl⟩
  · have hdata := fun hmem => hstack (dataAccess_subset_accesses hf hc.wellFormed hmem)
    obtain ⟨t', hc', ht'⟩ := hc.memWrite_unread hdata v
    exact ⟨t', (stepWith_instr hrun (hsame.trans hf)).trans (exec_of_completed hc'), ht'⟩
  · have hfault := raisesIndexFault_of_firstBadOperand hb (s.memWrite a.toNat v)
    exact ⟨_, (stepWith_instr hrun (hsame.trans hf)).trans hfault, rfl, hkeep⟩
  · exact ⟨_, stepWith_unsupported hrun (hsame.trans hf), rfl, hkeep⟩

end

/-- Settles O36: the shape by what the fetch answers, the unwritten cells by the one push a step can make, the unread
ones because neither the fetch nor the instruction depends on them. -/
theorem listedAccessesAreComplete : Obligations.ListedAccessesAreComplete := by
  unfold Obligations.ListedAccessesAreComplete
  exact fun o s t h => ⟨accesses_shape o s, fun a ha => stepWith_memRead_of_unwritten h ha,
    fun a v hfetch hstack => stepWith_memWrite_unread h hfetch hstack v⟩

end Sys2Proof.Machine
end

section
/-! SUPPORT. The output stream, the program counter, register 7 and the stack pointer, and the laws of the source
document. -/

namespace Sys2Proof.Machine

/-! ## The output stream -/

/-- Only PRN prints (10_state.md R29). -/
theorem Completed.out_eq {i : Instr} {s t : State} (h : Completed i s t) (hi : i.mnemonic ≠ .prn) :
    t.out = s.out := by
  cases i with
  | prn r => exact absurd rfl hi
  | ldi r _ | push r | pop r | call r | jmp r => obtain ⟨hr, rfl⟩ := h; rfl
  | jeq r | jne r => obtain ⟨hr, rfl⟩ := h; rw [branch_eq_setPc]; rfl
  | add a b | mult a b | cmp a b => obtain ⟨ha, hb, rfl⟩ := h; rfl
  | ret | hlt => obtain rfl : t = _ := h; rfl

/-- Earlier output is carried along and takes no part in the effect of an instruction (10_state.md R29). -/
theorem Completed.prepend_out {i : Instr} {s t : State} (h : Completed i s t) (earlier : List Byte) :
    Completed i { s with out := earlier ++ s.out } { t with out := earlier ++ t.out } := by
  cases i with
  | prn r =>
    obtain ⟨hr, rfl⟩ := h
    refine ⟨hr, ?_⟩
    rw [State.advance_out, State.emit_out, ← List.append_assoc]
    rfl
  | ldi r _ | push r | pop r | call r | jmp r => obtain ⟨hr, rfl⟩ := h; exact ⟨hr, rfl⟩
  | jeq r | jne r =>
    obtain ⟨hr, rfl⟩ := h
    refine ⟨hr, ?_⟩
    simp only [branch_eq_setPc]
    rfl
  | add a b | mult a b | cmp a b => obtain ⟨ha, hb, rfl⟩ := h; exact ⟨ha, hb, rfl⟩
  | ret | hlt => obtain rfl : t = _ := h; rfl

/-- Settles O37: PRN in range is an `emit`, no other completed instruction and no fault changes `out`, and no effect
depends on what was printed before. -/
theorem outputIsAppendOnlyAndUnread : Obligations.OutputIsAppendOnlyAndUnread := by
  unfold Obligations.OutputIsAppendOnlyAndUnread
  refine ⟨fun o s t h => ⟨fun r hr hf => ?printed, fun hnone => ?silent⟩, fun o s t earlier h => ?unread⟩
  case printed =>
    have hstep := (stepWith_instr (stepWith_next h).1 hf).trans (exec_prn_legal s hr)
    cases h.symm.trans hstep
    exact ⟨rfl, List.drop_left⟩
  case silent =>
    rcases stepWith_cases h with ⟨i, hf, hc⟩ | ⟨i, b, -, -, rfl⟩ | ⟨b, -, rfl⟩
    · refine hc.out_eq fun hi => ?_
      cases i <;> cases hi
      obtain ⟨hr, -⟩ := hc
      exact hnone _ hr hf
    · rfl
    · rfl
  case unread =>
    have hrun : State.run { s with out := earlier ++ s.out } = .running := (stepWith_next h).1
    rcases stepWith_cases h with ⟨i, hf, hc⟩ | ⟨i, b, hf, hb, rfl⟩ | ⟨b, hf, rfl⟩
    · exact (stepWith_instr hrun hf).trans (exec_of_completed (hc.prepend_out earlier))
    · exact (stepWith_instr hrun hf).trans (raisesIndexFault_of_firstBadOperand hb _)
    · exact stepWith_unsupported hrun hf

/-! ## The program counter -/

/-- Settles O38: the effect of each instruction on `pc`, an advance by its length but for the five that transfer
control; a fault changes `run` only. -/
theorem programCounterTable : Obligations.ProgramCounterTable := by
  unfold Obligations.ProgramCounterTable
  refine ⟨fun i s t hi h => ?table, fun o s t h ht => ?fault⟩
  case table =>
    have hc := completed_of_wellFormed hi h
    cases i with
    | ldi _ _ | prn _ | push _ | pop _ | add _ _ | mult _ _ | cmp _ _ | hlt =>
      exact hc.pcAdvances_length (by simp [Instr.mnemonic])
    | jmp r | call r => obtain ⟨hr, rfl⟩ := hc; exact fun _ => rfl
    | ret => obtain rfl : t = _ := hc; rfl
    | jeq r =>
      obtain ⟨hr, rfl⟩ := hc
      simp only [← equalSet_eq_bit, forall_prop_of_true hr]
      exact branch_pc ..
    | jne r =>
      obtain ⟨hr, rfl⟩ := hc
      simp only [← greaterOrLessSet_eq_bits, forall_prop_of_true hr]
      exact branch_pc ..
  case fault =>
    rcases stepWith_goneWrong h ht with ⟨i, b, -, -, rfl⟩ | ⟨b, -, rfl⟩
    · rfl
    · rfl

/-! ## Register 7 and the stack pointer -/

/-- Settles O39: the table of `sp` has one row for POP whatever its register, and no row but POP's for an instruction
with a destination; PUSH, CALL and RET have no destination (D2). -/
theorem registerSevenIsNotTheStackPointer : Obligations.RegisterSevenIsNotTheStackPointer := by
  unfold Obligations.RegisterSevenIsNotTheStackPointer
  refine ⟨rfl, fun i s t h hd hpop => ?spKept, fun r r' s t t' hr hr' h h' => ?popMove, fun i s t h hi => ?regKept⟩
  case spKept =>
    rcases exec_cases h with hc | ⟨b, -, rfl⟩
    · refine BitVec.eq_of_toNat_eq (hc.sp_eq.trans ?_)
      cases i with
      | ldi _ _ | add _ _ | mult _ _ => rfl
      | pop r => exact absurd rfl hpop
      | prn _ | push _ | call _ | ret | jmp _ | jeq _ | jne _ | cmp _ _ | hlt => cases hd
    · rfl
  case popMove =>
    cases h.symm.trans (exec_pop_legal s hr)
    cases h'.symm.trans (exec_pop_legal s hr')
    rfl
  case regKept =>
    rcases exec_cases h with hc | ⟨b, -, rfl⟩
    · have hnone : destination i = none := by
        cases i with
        | push _ | call _ | ret => rfl
        | ldi _ _ | prn _ | add _ _ | mult _ _ | pop _ | jmp _ | jeq _ | jne _ | cmp _ _ | hlt =>
          simp [Instr.mnemonic] at hi
      exact hc.reg_eq (by simp [hnone])
    · rfl

/-! ## Laws of the source document -/

/-- Settles O46: the LDI moves `pc` to the PRN and changes no byte of memory, and the PRN prints the register the LDI
wrote. -/
theorem ldiThenPrnPrintsImmediate : Obligations.LdiThenPrnPrintsImmediate := by
  unfold Obligations.LdiThenPrnPrintsImmediate
  intro o ho r v s hr hrun hbytes
  have hldi : fetch o s = .instr (.ldi r v) := by
    have himm : s.instrByte 2 = v := hbytes 2 (by decide)
    rw [fetch_of_instrBytes ho (hbytes 0 (by decide)) (hbytes 1 (by decide)), himm]
    rfl
  have hbyte (k : Nat) : ((s.setReg ⟨r.toNat, hr⟩ v).advance 3).instrByte k = s.instrByte (3 + k) :=
    State.instrByte_advance _ 3 k
  have hprn : fetch o ((s.setReg ⟨r.toNat, hr⟩ v).advance 3) = .instr (.prn r) :=
    fetch_of_instrBytes ho ((hbyte 0).trans (hbytes 3 (by decide))) ((hbyte 1).trans (hbytes 4 (by decide)))
  have hstepLdi := (stepWith_instr hrun hldi).trans (exec_ldi_legal s hr v)
  have hstepPrn := (stepWith_instr (s := (s.setReg _ v).advance 3) hrun hprn).trans (exec_prn_legal _ hr)
  refine ⟨_, _, hstepLdi, hstepPrn, ?out, State.outText_of_out_append ?out⟩
  simp

/-- Settles O48: the CALL leaves the return address on top of the stack, and the RET takes what is on top there and
moves `sp` back. -/
theorem callThenRetResumes : Obligations.CallThenRetResumes := by
  unfold Obligations.CallThenRetResumes
  refine fun r s hr => ⟨_, exec_call_legal s hr, fun u hsp htop => ⟨_, exec_ret_next u, ?pc, ?sp⟩⟩
  case pc =>
    have hsaved : u.stackTop = s.pc + 2#8 := htop.trans (s.stackTop_push _)
    simp [hsaved, BitVec.toNat_add]
  case sp => simp [hsp]

/-- ADD gives the same bits for operands read as two's complement (41_arithmetic.md R122). -/
theorem aluAdd_toInt (u v : Byte) : aluAdd u v = BitVec.ofInt 8 (u.toInt + v.toInt) := by
  rw [aluAdd_eq, BitVec.ofInt_add, BitVec.ofInt_toInt, BitVec.ofInt_toInt]

/-- MULT gives the same bits for operands read as two's complement (41_arithmetic.md R122). -/
theorem aluMult_toInt (u v : Byte) : aluMult u v = BitVec.ofInt 8 (u.toInt * v.toInt) := by
  rw [aluMult_eq, BitVec.ofInt_mul, BitVec.ofInt_toInt, BitVec.ofInt_toInt]

/-- Settles O49: the register written holds the arithmetic unit's result, which is both readings' sum or product, and
nothing but the registers and `pc` is written. -/
theorem arithmeticIsModulo256 : Obligations.ArithmeticIsModulo256 := by
  unfold Obligations.ArithmeticIsModulo256
  refine fun a b s ha hb => ⟨⟨_, exec_add_legal s ha hb, ?_, ?_, rfl⟩, ⟨_, exec_mult_legal s ha hb, ?_, ?_, rfl⟩⟩
  · exact (congrArg BitVec.toNat (s.reg_setReg_same _ _)).trans (aluAdd_toNat _ _)
  · exact (s.reg_setReg_same _ _).trans (aluAdd_toInt _ _)
  · exact (congrArg BitVec.toNat (s.reg_setReg_same _ _)).trans (aluMult_toNat _ _)
  · exact (s.reg_setReg_same _ _).trans (aluMult_toInt _ _)

/-! ## What the outside world sees -/

/-- Settles O42: reset forgets the state before it, and the reset state is written out. -/
theorem resetValues : Obligations.ResetValues := by
  unfold Obligations.ResetValues
  exact fun s => ⟨rfl, show ∀ k, State.reset.reg k = _ by decide, rfl, rfl, rfl, Memory.read_reset, rfl, rfl⟩

/-- Settles O51, by the three kinds of status and the two causes. -/
theorem statusPortsShowRun : Obligations.StatusPortsShowRun := by
  unfold Obligations.StatusPortsShowRun
  intro s
  simp only [State.haltedPort, State.faultPorts, State.goneWrong]
  cases hr : s.run with
  | running | halted => simp
  | faulted c b p => cases c <;> simp [Cause.code]

/-- The digits are the shortest decimal numeral of `n`, most significant first (10_state.md R29; D10). -/
def IsShortestNumeral (n : Nat) (digits : List Nat) : Prop :=
  digits ≠ [] ∧ (∀ d ∈ digits, d < 10) ∧ digits.foldl (fun k d => 10 * k + d) 0 = n ∧
    (digits.head? = some 0 → digits = [0])

theorem IsShortestNumeral.digit {n : Nat} (h : n < 10) : IsShortestNumeral n [n] := by
  simp [IsShortestNumeral, h]

/-- A further digit behind the numeral of a number that is not zero. -/
theorem IsShortestNumeral.snoc {n d : Nat} {digits : List Nat} (h : IsShortestNumeral n digits) (hn : n ≠ 0)
    (hd : d < 10) : IsShortestNumeral (10 * n + d) (digits ++ [d]) := by
  obtain ⟨hne, hdigits, hvalue, hlead⟩ := h
  refine ⟨by simp, ?_, by simp [hvalue], fun hzero => ?_⟩
  · simpa [or_imp, forall_and, hd] using hdigits
  · rw [List.head?_append_of_ne_nil _ hne] at hzero
    rw [hlead hzero] at hvalue
    exact absurd hvalue.symm hn

/-- The characters that `Nat.toDigits` gives are those of the shortest numeral. -/
theorem exists_shortestNumeral_toDigits (n : Nat) :
    ∃ digits, IsShortestNumeral n digits ∧ Nat.toDigits 10 n = digits.map fun d => Char.ofNat (48 + d) := by
  have hchar : ∀ d < 10, Nat.digitChar d = Char.ofNat (48 + d) := by decide
  induction n using Nat.strong_induction_on with
  | _ n ih =>
    by_cases hn : n < 10
    · exact ⟨[n], .digit hn, by simp [Nat.toDigits_of_lt_base hn, hchar n hn]⟩
    · obtain ⟨digits, hnumeral, hdigits⟩ := ih (n / 10) (by omega)
      have hlast : n % 10 < 10 := Nat.mod_lt _ (by decide)
      refine ⟨digits ++ [n % 10], ?_, ?_⟩
      · have hsnoc := hnumeral.snoc (by omega) hlast
        rwa [Nat.div_add_mod] at hsnoc
      · rw [Nat.toDigits_of_base_le (by decide) (by omega), hdigits, hchar _ hlast, List.map_append, List.map_singleton]

/-- Settles O50, by induction over the digits of the byte. -/
theorem decimalLineIsShortestNumeral : Obligations.DecimalLineIsShortestNumeral := by
  unfold Obligations.DecimalLineIsShortestNumeral
  intro v
  obtain ⟨digits, ⟨hne, hdigits, hvalue, hlead⟩, htext⟩ := exists_shortestNumeral_toDigits v.toNat
  exact ⟨digits, hne, hdigits, hvalue, hlead, by rw [decimalLine, htext]⟩

end Sys2Proof.Machine
end
